-- ==== Sys2Proof/Word.lean ====
section
/-! DEFINITION. The word types of the codec: the byte and the pixel (spec/10_state.md R10). -/

namespace Sys2Proof

/-- A byte of a buffer or a component of a pixel: an integer in 0..255 with wrap-around arithmetic (R7). -/
abbrev Byte := BitVec 8

/-- R10: "an ordered 4-tuple (r,g,b,a) of 8-bit unsigned components". Equality is that of the tuple (R71). -/
structure Pixel where
  r : Byte
  g : Byte
  b : Byte
  a : Byte
deriving DecidableEq, Repr

/-- R70: the default pixel (0,0,0,255), the job-start value of `prev`. -/
def Pixel.opaqueBlack : Pixel := ⟨0, 0, 0, 255⟩

/-- R96: the job-start value of every index entry, (0,0,0,0), "with alpha 0, not 255". -/
def Pixel.clear : Pixel := ⟨0, 0, 0, 0⟩

end Sys2Proof
end

