-- ==== Sys2Proof/Config.lean ====
section
/-! DEFINITION. The constants of the core (spec/00_scope.md R6) and the values its environment chooses freely. -/

namespace Sys2Proof.Config

/-- R6 MAX_RUN: the longest run one RUN opcode carries. -/
abbrev maxRun : Nat := 62

/-- R6 HEADER_LEN. -/
abbrev headerLen : Nat := 14

/-- R6 EPILOGUE_LEN. -/
abbrev epilogueLen : Nat := 8

/-- R6 MIN_QOI_LEN = 14 + 1 + 8, the least length IS_QOI accepts (R166). -/
abbrev minQoiLen : Nat := 23

/-- R6 MAX_PIXELS: the greatest `width*height` accepted (92 D26). -/
abbrev maxPixels : Nat := 400000000

/-- FREE VALUE (log 3): whether the sink accepts the encoder's append number `n`, once the answers listed in the state are
used up. The spec constrains it nowhere (R33, 93 U10). -/
opaque encAnswer : Nat → Bool

/-- FREE VALUE (log 3): the environment's answer to the decoder's request number `n` (the grant of PIX_OUT, R138, or the
acceptance of one pixel write, R151), once the answers listed in the state are used up. -/
opaque decAnswer : Nat → Bool

/-- FREE VALUE (log 8): whether IS_QOI runs the header parser on an input of fewer than 23 bytes, whose result bit is 0
without it. R166 joins the two conditions with `and` and does not say. -/
opaque shortIsQoiParses : Bool

end Sys2Proof.Config
end

