-- ==== Sys2Proof/Syntax.lean ====
section
/-! DEFINITION. The instruction set: the six opcodes of spec/opcode_table.json, in dispatch order (spec/30_encoding.md R59). -/

namespace Sys2Proof

/-- One opcode with its operands as R64 writes them: signed differences for DIFF and LUMA, the run LENGTH for RUN.
The biased fields of the bytes are taken apart and put together in Decode.lean only. -/
inductive Instr where
  /-- R56: three full components; alpha is not carried. -/
  | rgb (r g b : Byte)
  /-- R57: four full components. -/
  | rgba (r g b a : Byte)
  /-- R52: the entry number of the running index. -/
  | index (h : Fin 64)
  /-- R53: three signed differences, each in -2..1. -/
  | diff (dr dg db : Int)
  /-- R54: the green difference in -32..31, and red-green and blue-green in -8..7. -/
  | luma (dg drg dbg : Int)
  /-- R55: the run length, 1..62. -/
  | run (n : Nat)
deriving DecidableEq, Repr

end Sys2Proof
end

