-- ==== Sys2Proof/WellFormed.lean ====
section
/-! DEFINITION. Which operands an encoding admits (spec/30_encoding.md R64, the column "operand ranges"). -/

namespace Sys2Proof

/-- R64's operand ranges, opcode by opcode; a byte operand and an index entry number are in range by their types. -/
def Instr.wellFormed : Instr → Bool
  | .rgb _ _ _ => true
  | .rgba _ _ _ _ => true
  | .index _ => true
  | .diff dr dg db => (-2 ≤ dr && dr ≤ 1) && (-2 ≤ dg && dg ≤ 1) && (-2 ≤ db && db ≤ 1)
  | .luma dg drg dbg => (-32 ≤ dg && dg ≤ 31) && (-8 ≤ drg && drg ≤ 7) && (-8 ≤ dbg && dbg ≤ 7)
  | .run n => 1 ≤ n && n ≤ Config.maxRun

end Sys2Proof
end

