-- ==== Sys2Proof/Decode.lean ====
section
/-! DEFINITION. The decoder, total on any bytes, and the encoder (spec/30_encoding.md R51 to R60). -/

namespace Sys2Proof

/-- Why a byte sequence starts with no opcode. Every byte is the first byte of an opcode (R61), so the only reason is that
the sequence ends too early; R39 says the core never meets it. -/
inductive DecodeError where
  /-- There is no first byte. -/
  | noTag
  /-- The first byte is 0xFE and fewer than three bytes follow. -/
  | truncatedRgb
  /-- The first byte is 0xFF and fewer than four bytes follow. -/
  | truncatedRgba
  /-- The first byte is 0x80..0xBF and no byte follows. -/
  | truncatedLuma
deriving DecidableEq, Repr

/-- The signed value of a biased field: the field minus its bias (R58); never a sign extension. -/
def unbias {w : Nat} (bias : Int) (field : BitVec w) : Int := (field.toNat : Int) - bias

/-- The field of width `w` that carries the signed value `d` with a bias (R58). -/
def biased (w : Nat) (bias d : Int) : BitVec w := BitVec.ofInt w (d + bias)

/-- R53: bits 5..4, 3..2 and 1..0 are dr+2, dg+2, db+2. -/
def decodeDiff (tag : Byte) : Instr :=
  .diff (unbias 2 (tag.extractLsb' 4 2)) (unbias 2 (tag.extractLsb' 2 2)) (unbias 2 (tag.extractLsb' 0 2))

/-- R54: bits 5..0 of the tag are dg+32; the second byte's nibbles are dr-dg+8 and db-dg+8. -/
def decodeLuma (tag b2 : Byte) : Instr :=
  .luma (unbias 32 (tag.extractLsb' 0 6)) (unbias 8 (b2.extractLsb' 4 4)) (unbias 8 (b2.extractLsb' 0 4))

/-- R59: the opcode at the head of a byte sequence and the bytes after it. The full-byte tags are tested before the
two-bit tag. -/
def decode : List Byte → Except DecodeError (Instr × List Byte)
  | [] => .error .noTag
  | tag :: rest =>
    if tag = 0xFE#8 then
      match rest with
      | r :: g :: b :: rest' => .ok (.rgb r g b, rest')
      | _ => .error .truncatedRgb
    else if tag = 0xFF#8 then
      match rest with
      | r :: g :: b :: a :: rest' => .ok (.rgba r g b a, rest')
      | _ => .error .truncatedRgba
    else if tag.extractLsb' 6 2 = 0b00#2 then
      .ok (.index (Fin.ofNat 64 tag.toNat), rest)
    else if tag.extractLsb' 6 2 = 0b01#2 then
      .ok (decodeDiff tag, rest)
    else if tag.extractLsb' 6 2 = 0b10#2 then
      match rest with
      | b2 :: rest' => .ok (decodeLuma tag b2, rest')
      | _ => .error .truncatedLuma
    else
      .ok (.run ((tag.extractLsb' 0 6).toNat + 1), rest)

/-- R51: the length in bytes of an opcode. -/
def Instr.length : Instr → Nat
  | .rgb _ _ _ => 4
  | .rgba _ _ _ _ => 5
  | .index _ => 1
  | .diff _ _ _ => 1
  | .luma _ _ _ => 2
  | .run _ => 1

/-- The bytes of an opcode, field by field from the most significant bit (R52 to R57). -/
def encode : Instr → List Byte
  | .rgb r g b => [0xFE#8, r, g, b]
  | .rgba r g b a => [0xFF#8, r, g, b, a]
  | .index h => [0b00#2 ++ BitVec.ofNat 6 h.val]
  | .diff dr dg db => [0b01#2 ++ biased 2 2 dr ++ biased 2 2 dg ++ biased 2 2 db]
  | .luma dg drg dbg => [0b10#2 ++ biased 6 32 dg, biased 4 8 drg ++ biased 4 8 dbg]
  | .run n => [0b11#2 ++ BitVec.ofNat 6 (n - 1)]

/-- The bytes of a table word: bit 0 is the least significant bit of the first byte, a later byte's bits count on from it,
and every bit from `nbits` on is 0. Five bytes are laid out, the longest opcode's length. -/
def tableBytes (nbits w : Nat) : List Byte :=
  let v := w % 2 ^ nbits
  [BitVec.ofNat 8 v, BitVec.ofNat 8 (v / 2 ^ 8), BitVec.ofNat 8 (v / 2 ^ 16), BitVec.ofNat 8 (v / 2 ^ 24),
    BitVec.ofNat 8 (v / 2 ^ 32)]

/-- The instruction the decoder reads from a table word. -/
def decodeTableWord (nbits w : Nat) : Option Instr :=
  match decode (tableBytes nbits w) with
  | .ok (i, _) => some i
  | .error _ => none

end Sys2Proof
end

