-- ==== Sys2Proof/Machine/State.lean ====
section
/-! DEFINITION. The state of the codec core as plain data (spec/10_state.md, spec/20_memory.md R30), the reasons a step stops, and the
state after reset. -/

namespace Sys2Proof.Machine

/-- One address space (R30): its written bytes by address, addresses strictly rising. What an unlisted address reads as is
`Memory.unlisted` in Ops.lean. -/
abbrev Memory := List Host.Cell

/-- R16: the descriptor registers. -/
structure Descriptor where
  width : BitVec 32
  height : BitVec 32
  channels : Byte
  colorspace : Byte
deriving DecidableEq, Repr

/-- R21: the phases of an agent. -/
inductive Phase where
  | idle
  | running
  | done
  | error
deriving DecidableEq, Repr

/-- R175: the eleven error kinds. -/
inductive ErrorKind where
  | tooSmall
  | missingSignature
  | zeroDimension
  | invalidChannel
  | invalidColorspace
  | imageTooLarge
  | outOfMemory
  | emptyPixelBuffer
  | zeroPixelCount
  | invalidEncoding
  | writeFailed
deriving DecidableEq, Repr

/-- R22: the status register holds OK or the kind of the error raised; no other value exists (93 U3). -/
inductive Status where
  | ok
  | raised (k : ErrorKind)
deriving DecidableEq, Repr

/-- R21, R22: the control registers every agent has. -/
structure Control where
  phase : Phase
  status : Status
deriving DecidableEq, Repr

/-- R13 to R15: the working state every agent has. `run` is 6 bits wide in the spec and bounded by an invariant here. -/
structure Codec where
  index : Vector Pixel 64
  prev : Pixel
  run : Nat
deriving DecidableEq, Repr

/-- The environment of one agent (R26, 93 U9, U10), the model's own field (log 3): the answers it will give, oldest first, and
how many it has given. -/
structure Env where
  answers : List Bool
  draws : Nat
deriving DecidableEq, Repr

/-- R11: the registers of the encoder agent. -/
structure Enc where
  desc : Descriptor
  pixLen : Nat
  codec : Codec
  pos : Nat
  outLen : Nat
  control : Control
  env : Env
deriving DecidableEq, Repr

/-- R12: the registers of the decoder agent; `cursor` is the program counter (R18). `isQoi` is the result bit of IS_QOI (R166). -/
structure Dec where
  inLen : Nat
  desc : Descriptor
  codec : Codec
  cursor : Nat
  lastTagCursor : Nat
  opos : Nat
  isQoi : Bool
  control : Control
  env : Env
deriving DecidableEq, Repr

/-- R9: the two agents. -/
inductive Agent where
  | enc
  | dec
deriving DecidableEq, Repr

/-- R165: the job commands, each with the inputs taken together with it (R205). `overlap` says whether the host placed the
job's input and output buffers so that they overlap (R43). -/
inductive Command where
  | isQoi (stream : List Byte)
  | parseDescriptor (stream : List Byte)
  | encode (desc : Descriptor) (pixels : List Byte) (overlap : Bool)
  | decode (stream : List Byte) (overlap : Bool)
deriving DecidableEq, Repr

/-- What reaches the machine at one step (log 4): an act of the host, or the move of one agent. -/
inductive Input where
  /-- The host issues a command (R205). -/
  | command (c : Command)
  /-- The host writes one byte of the agent's input buffer (R206: not during a job). -/
  | hostWrite (a : Agent) (addr : Nat) (byte : Byte)
  /-- The host has read the outputs of the agent's job (R207): DONE goes back to IDLE (R21), ERROR stays (R183). -/
  | collect (a : Agent)
  /-- The agent makes its next step. -/
  | turn (a : Agent)
deriving DecidableEq, Repr

/-- The whole machine: both agents, the four address spaces (R30) and the inputs to come. -/
structure State where
  enc : Enc
  dec : Dec
  pixIn : Memory
  strOut : Memory
  strIn : Memory
  pixOut : Memory
  inputs : List Input
deriving DecidableEq, Repr

/-- Why a step stops with a fault: the host did not supply a byte it had to supply before the job (R204). Both are SAFE: the
spec gives no value for such a byte, and the invariant of Safety.lean excludes them. -/
inductive Fault where
  /-- Raised by DEC's fetch when STR_IN holds no byte of the opcode at this cursor (log 2). -/
  | unreadableOpcode (cursor : Nat)
  /-- Raised by ENC's pixel read when PIX_IN does not hold the bytes of this pixel, or the channel count is not 3 or 4
  (logs 2 and 20). -/
  | unreadablePixel (pos : Nat)
deriving DecidableEq, Repr

/-- What the model gives no meaning to. All are SAFE: nothing is provable about what follows. -/
inductive Refusal where
  /-- An instruction without a meaning yet; no arm of `exec` answers so. -/
  | notModelled (mnemonic : String)
  /-- A command to an agent in RUNNING (R206, 92 D21, 93 U7). -/
  | commandWhileRunning (a : Agent)
  /-- A job whose input and output buffers overlap (R43, R211, 93 U6). -/
  | overlappingBuffers (a : Agent)
  /-- ENCODE with a channel count not 3 or 4, a colour space not 0 or 1, or a buffer of the wrong length (R105, 93 U4, U5). -/
  | encodePrecondition
  /-- The host changed an input buffer during the job (R206, 93 U6). -/
  | inputChangedDuringJob (a : Agent)
  /-- The host took the outputs of a job that is not over (R206). -/
  | collectedDuringJob (a : Agent)
deriving DecidableEq, Repr

/-- R107, R139: the working state at job start. -/
def Codec.initial : Codec :=
  { index := Vector.replicate 64 Pixel.clear, prev := Pixel.opaqueBlack, run := 0 }

/-- R24 (power-on): the phase is IDLE and the status OK. -/
def Control.powerOn : Control := { phase := .idle, status := .ok }

/-- A descriptor with every field 0 (log 1). -/
def Descriptor.zero : Descriptor := { width := 0, height := 0, channels := 0, colorspace := 0 }

/-- No answer listed, no draw made (log 3). -/
def Env.fresh : Env := { answers := [], draws := 0 }

/-- R202: the machine after power-on. `phase` and `status` are the spec's; the other registers are unspecified there, and
hold the job-start value of R24 where it has one, else zero (log 1). -/
def State.reset : State :=
  { enc := { desc := .zero, pixLen := 0, codec := .initial, pos := 0, outLen := 0, control := .powerOn, env := .fresh }
    dec := { inLen := 0, desc := .zero, codec := .initial, cursor := 14, lastTagCursor := 0, opos := 0, isQoi := false,
             control := .powerOn, env := .fresh }
    pixIn := []
    strOut := []
    strIn := []
    pixOut := []
    inputs := [] }

end Sys2Proof.Machine
end

