-- ==== Sys2Proof/Machine/Operands.lean ====
section
/-! DEFINITION. Byte arithmetic, the pixel hash and the operand forms: how a pixel is made from bytes and bytes from a pixel
(spec/00_scope.md R7, spec/40_pixel_hash.md). -/

namespace Sys2Proof.Machine

/-- R7: `(a + b) mod 256`. -/
def add8 (a b : Byte) : Byte := a + b

/-- R7: `(a - b) mod 256`. -/
def sub8 (a b : Byte) : Byte := a - b

/-- R7: the signed reading of a byte, `v` if `v < 128`, else `v - 256`. -/
def s8 (v : Byte) : Int := if v.toNat < 128 then v.toNat else (v.toNat : Int) - 256

/-- R75 (e): `(c + d) mod 256` for a component and a signed quantity, with the mathematical modulus. -/
def addSigned (c : Byte) (d : Int) : Byte := BitVec.ofInt 8 ((c.toNat : Int) + d)

/-- R73: `(3*r + 5*g + 7*b + 11*a) mod 64`, the sum taken exactly. -/
def pixelHash (p : Pixel) : Fin 64 :=
  Fin.ofNat 64 (3 * p.r.toNat + 5 * p.g.toNat + 7 * p.b.toNat + 11 * p.a.toNat)

/-- R10: a pixel as one word, `r` in bits 31..24 down to `a` in bits 7..0 (92 D3, log 26; never observable). -/
def packPixel (p : Pixel) : BitVec 32 := p.r ++ p.g ++ p.b ++ p.a

/-- R7: four bytes as a number, the most significant first. -/
def be32 (b0 b1 b2 b3 : Byte) : BitVec 32 := b0 ++ b1 ++ b2 ++ b3

/-- R7: the four bytes of a number, the most significant first. -/
def bytesBe32 (v : BitVec 32) : List Byte :=
  [v.extractLsb' 24 8, v.extractLsb' 16 8, v.extractLsb' 8 8, v.extractLsb' 0 8]

/-- R110: the current pixel from the bytes of the pixel buffer; a 3-channel pixel takes its alpha from `prev`. None where the
bytes are not those of one pixel. -/
def pixelOfBytes (channels : Byte) (prev : Pixel) : List Byte → Option Pixel
  | [r, g, b, a] => if channels = 4 then some ⟨r, g, b, a⟩ else none
  | [r, g, b] => if channels = 3 then some ⟨r, g, b, prev.a⟩ else none
  | _ => none

/-- R151: the bytes a pixel occupies in the output buffer. No job runs with another channel count (R82; log 20). -/
def pixelBytes (channels : Byte) (p : Pixel) : List Byte :=
  if channels = 4 then [p.r, p.g, p.b, p.a]
  else if channels = 3 then [p.r, p.g, p.b]
  else []

/-- R76: the exact product `width*height`. -/
def Descriptor.pixelCount (d : Descriptor) : Nat := d.width.toNat * d.height.toNat

/-- R31, R34: where pixel number `i` starts in a pixel buffer. -/
def pixelAddress (d : Descriptor) (i : Nat) : Nat := i * d.channels.toNat

end Sys2Proof.Machine
end

