-- ==== Sys2Proof/Machine/Flags.lean ====
section
/-! DEFINITION. The core has no flags (spec/10_state.md R25). What stands in their place are the conditions that select an opcode: they are
computed inside one encoder step and kept nowhere (R25, spec/43_encoder.md R123). -/

namespace Sys2Proof.Machine

/-- R75 (b), R116: the byte's signed reading is in -2..1. -/
def inDiffRange (v : Byte) : Bool := (add8 v 2).toNat < 4

/-- R75 (b), R117: the byte's signed reading is in -32..31. -/
def inLumaGreenRange (v : Byte) : Bool := (add8 v 32).toNat < 64

/-- R75 (b), R117: the byte's signed reading is in -8..7. -/
def inLumaCrossRange (v : Byte) : Bool := (add8 v 8).toNat < 16

/-- R115: the wrap-around differences of red, green and blue, in that order. -/
def differences (cur prev : Pixel) : Byte × Byte × Byte :=
  (sub8 cur.r prev.r, sub8 cur.g prev.g, sub8 cur.b prev.b)

/-- R116: DIFF's condition on the colours (alpha is tested apart). -/
def diffFits (cur prev : Pixel) : Bool :=
  let (vr, vg, vb) := differences cur prev
  inDiffRange vr && inDiffRange vg && inDiffRange vb

/-- R117: LUMA's condition on the colours (alpha and DIFF are tested apart). -/
def lumaFits (cur prev : Pixel) : Bool :=
  let (vr, vg, vb) := differences cur prev
  inLumaGreenRange vg && inLumaCrossRange (sub8 vr vg) && inLumaCrossRange (sub8 vb vg)

/-- R111: the encoder is at the last pixel of the image. -/
def isLastPixel (d : Descriptor) (pos : Nat) : Bool := pos + 1 = d.pixelCount

end Sys2Proof.Machine
end

