-- ==== Sys2Proof/Machine/Ops.lean ====
section
/-! DEFINITION. The named operations over memory, the index table and the control registers: reading and writing an address space, the index
write, raising an error, ending and starting a job, appending to the sink, writing one output pixel. -/

namespace Sys2Proof.Machine

/-! Memory (spec/20_memory.md R30, R37: every access is one byte). -/

/-- What an address nothing has written reads as: no value (log 2). -/
def Memory.unlisted : Option Byte := none

/-- The byte at an address, if one stands there. Reading has no side effect (R46). -/
def Memory.read : Memory → Nat → Option Byte
  | [], _ => Memory.unlisted
  | (a, b) :: m, addr => if a = addr then some b else Memory.read m addr

/-- One byte written at an address; the cells stay in rising order. -/
def Memory.write : Memory → Nat → Byte → Memory
  | [], addr, v => [(addr, v)]
  | (a, b) :: m, addr, v =>
    if addr < a then (addr, v) :: (a, b) :: m
    else if addr = a then (addr, v) :: m
    else (a, b) :: Memory.write m addr v

/-- R7 MemWrite: bytes written at ascending addresses. -/
def Memory.writeBytes : Memory → Nat → List Byte → Memory
  | m, _, [] => m
  | m, addr, v :: vs => Memory.writeBytes (m.write addr v) (addr + 1) vs

/-- The cells of a byte sequence from an address on. -/
def Memory.cellsFrom : Nat → List Byte → Memory
  | _, [] => []
  | addr, v :: vs => (addr, v) :: Memory.cellsFrom (addr + 1) vs

/-- A buffer that holds exactly these bytes, from address 0 (R30). -/
def Memory.ofBytes (bs : List Byte) : Memory := Memory.cellsFrom 0 bs

/-- R7 MemRead inside a buffer of `len` bytes: the bytes at `addr` and on, `n` of them, ended by the first address that is
outside the buffer or holds no byte. -/
def Memory.window (m : Memory) (len : Nat) : Nat → Nat → List Byte
  | _, 0 => []
  | addr, n + 1 =>
    if addr < len then
      match m.read addr with
      | some b => b :: Memory.window m len (addr + 1) n
      | none => []
    else []

/-- The canonical form: addresses strictly rising, and no entry equal to what an unlisted address reads as. -/
def Memory.wf : Memory → Bool
  | [] => true
  | (_, b) :: [] => some b != Memory.unlisted
  | (a, b) :: (a', b') :: m => a < a' && some b != Memory.unlisted && Memory.wf ((a', b') :: m)

/-! The environment's answers (R33, R138; log 3). -/

/-- The environment's next answer: the next listed one, else the free value `free` at this draw. -/
def Env.answer (free : Nat → Bool) (v : Env) : Bool :=
  match v.answers with
  | [] => free v.draws
  | a :: _ => a

/-- The environment after one draw. -/
def Env.advance (v : Env) : Env := { answers := v.answers.tail, draws := v.draws + 1 }

/-- Whether the sink accepts the encoder's next append (R33). -/
def Enc.accepts (e : Enc) : Bool := e.env.answer Config.encAnswer

/-- The answer to the decoder's next request: a grant (R138) or the acceptance of a pixel write (R151). -/
def Dec.accepts (d : Dec) : Bool := d.env.answer Config.decAnswer

/-! The control registers (spec/60_exceptions.md). -/

/-- R180: error entry. The status takes the kind and the phase becomes ERROR; nothing else is saved or changed. There is no
return (R183): the agent stays there until a new job starts. -/
def Control.raise (k : ErrorKind) (_ : Control) : Control := { phase := .error, status := .raised k }

/-- R121, R152: a job that ends without error. -/
def Control.finish (_ : Control) : Control := { phase := .done, status := .ok }

/-- R24, R205: a job starts, whatever an earlier job left (R183, R200). -/
def Control.start (_ : Control) : Control := { phase := .running, status := .ok }

/-- R21: the host has collected the results of a job that ended without error: the phase goes back to IDLE. In ERROR it stays:
there is no return from an error before a new job starts (R183). The status stays readable (log 23). -/
def Control.collected (c : Control) : Control := { c with phase := if c.phase = .done then .idle else c.phase }

/-- R21: DONE and ERROR are the final phases. -/
def Phase.final : Phase → Bool
  | .done => true
  | .error => true
  | .idle => false
  | .running => false

/-- R175: the numeric codes, 0 for OK (92 D4). -/
def Status.code : Status → Nat
  | .ok => 0
  | .raised .tooSmall => 1
  | .raised .missingSignature => 2
  | .raised .zeroDimension => 3
  | .raised .invalidChannel => 4
  | .raised .invalidColorspace => 5
  | .raised .imageTooLarge => 6
  | .raised .outOfMemory => 7
  | .raised .emptyPixelBuffer => 8
  | .raised .zeroPixelCount => 9
  | .raised .invalidEncoding => 10
  | .raised .writeFailed => 11

/-- R21: the numeric codes of the phases (92 D10). -/
def Phase.code : Phase → Nat
  | .idle => 0
  | .running => 1
  | .done => 2
  | .error => 3

/-- R165: the numeric codes of the commands (92 D11). -/
def Command.code : Command → Nat
  | .isQoi _ => 0
  | .parseDescriptor _ => 1
  | .encode _ _ _ => 2
  | .decode _ _ => 3

/-! The index table (spec/42_index_table.md). -/

/-- R97: the entry, with no side effect. -/
def Codec.entry (c : Codec) (i : Fin 64) : Pixel := c.index[i]

/-- R98, R99: the entry of a pixel's own hash takes the pixel. -/
def Codec.insert (c : Codec) (p : Pixel) : Codec := { c with index := c.index.set (pixelHash p) p }

/-- R144 to R150: the pixel an opcode other than RUN has produced becomes `prev` and is written to its index entry. -/
def Codec.materialize (c : Codec) (p : Pixel) : Codec := { c.insert p with prev := p }

/-! Output. -/

/-- What a write to a sink comes to: the job goes on, or the write was refused and the job has ended (R181). -/
inductive Progress where
  | go (s : State)
  | stop (s : State)
deriving DecidableEq, Repr

/-- The rest of a step, made only if the job goes on (R180: after `raise` nothing more happens). -/
def Progress.andThen (p : Progress) (f : State → State) : State :=
  match p with
  | .go s => f s
  | .stop s => s

/-- R33 Append: if the sink accepts, the bytes stand at `out_len` and on and `out_len` grows by their number; if it
refuses, WriteFailed (R176), and none of these bytes counts (93 U14). -/
def append (s : State) (bs : List Byte) : Progress :=
  if s.enc.accepts then
    .go { s with
      strOut := s.strOut.writeBytes s.enc.outLen bs
      enc := { s.enc with outLen := s.enc.outLen + bs.length, env := s.enc.env.advance } }
  else
    .stop { s with enc := { s.enc with env := s.enc.env.advance, control := s.enc.control.raise .writeFailed } }

/-- R151 and the end of R140: `prev` is written as output pixel number `opos` and `opos` grows by 1; if the write is
refused, WriteFailed (R157), and the pixel is not written. -/
def writePixel (s : State) : State :=
  if s.dec.accepts then
    { s with
      pixOut := s.pixOut.writeBytes (pixelAddress s.dec.desc s.dec.opos) (pixelBytes s.dec.desc.channels s.dec.codec.prev)
      dec := { s.dec with opos := s.dec.opos + 1, env := s.dec.env.advance } }
  else
    { s with dec := { s.dec with env := s.dec.env.advance, control := s.dec.control.raise .writeFailed } }

/-- R140: the decoder's cursor past an opcode's bytes, its codec registers as the opcode leaves them. -/
def Dec.executed (d : Dec) (i : Instr) (c : Codec) : Dec := { d with cursor := d.cursor + i.length, codec := c }

/-- The step of an opcode that produces a pixel: cursor, `prev`, index (R150), then the output write (R151). -/
def producePixel (s : State) (i : Instr) (p : Pixel) : State :=
  writePixel { s with dec := s.dec.executed i (s.dec.codec.materialize p) }

/-- R39, R142: the input bytes from the cursor on, as many as the longest opcode has, ended by the end of the input. -/
def fetchWindow (s : State) : List Byte := s.strIn.window s.dec.inLen s.dec.cursor 5

end Sys2Proof.Machine
end

