-- ==== Sys2Proof/Machine/Delta.lean ====
section
/-! DEFINITION. The opcodes that carry differences: DIFF and LUMA (spec/44_decoder.md R147, R148). -/

namespace Sys2Proof.Machine

/-- The pixel that differs from `p` by signed quantities mod 256, alpha unchanged (R75 (e)). -/
def shiftedPixel (p : Pixel) (dr dg db : Int) : Pixel :=
  ⟨addSigned p.r dr, addSigned p.g dg, addSigned p.b db, p.a⟩

/-- R147: each colour moves by its own difference mod 256. -/
def execDiff (dr dg db : Int) (s : State) : Host.Outcome State Fault Refusal :=
  .next (producePixel s (.diff dr dg db) (shiftedPixel s.dec.codec.prev dr dg db))

/-- R148: green moves by `gd = dg`; red and blue by `gd - 8 + field`, that is `dg + drg` and `dg + dbg`, the nibbles being
`drg + 8` and `dbg + 8` (R54). All three start from the old `prev`. -/
def execLuma (dg drg dbg : Int) (s : State) : Host.Outcome State Fault Refusal :=
  .next (producePixel s (.luma dg drg dbg) (shiftedPixel s.dec.codec.prev (dg + drg) dg (dg + dbg)))

end Sys2Proof.Machine
end

