-- ==== Sys2Proof/Machine/Literal.lean ====
section
/-! DEFINITION. The opcodes with a full-byte tag, which carry components themselves: RGB and RGBA (spec/44_decoder.md R144, R145). -/

namespace Sys2Proof.Machine

/-- R144: `prev <- (r, g, b, prev.a)`; the first extra byte is red, the second green, the third blue. -/
def execRgb (r g b : Byte) (s : State) : Host.Outcome State Fault Refusal :=
  .next (producePixel s (.rgb r g b) ⟨r, g, b, s.dec.codec.prev.a⟩)

/-- R145: `prev <- (r, g, b, a)`, whatever the header's channel count. -/
def execRgba (r g b a : Byte) (s : State) : Host.Outcome State Fault Refusal :=
  .next (producePixel s (.rgba r g b a) ⟨r, g, b, a⟩)

end Sys2Proof.Machine
end

