-- ==== Sys2Proof/Machine/Lookup.lean ====
section
/-! DEFINITION. The opcode that reads the index table: INDEX (spec/44_decoder.md R146). -/

namespace Sys2Proof.Machine

/-- R146: `prev <- index[h]`, alpha included; then `index[hash(prev)] <- prev` as after every opcode but RUN (R99, R150). -/
def execIndex (h : Fin 64) (s : State) : Host.Outcome State Fault Refusal :=
  .next (producePixel s (.index h) (s.dec.codec.entry h))

end Sys2Proof.Machine
end

