-- ==== Sys2Proof/Machine/Run.lean ====
section
/-! DEFINITION. The opcode that repeats the previous pixel: RUN (spec/44_decoder.md R149). -/

namespace Sys2Proof.Machine

/-- R149: `run <- n - 1`, the pixels still to come after this one; `prev` and the index stay. The step writes `prev` (R151). -/
def execRun (n : Nat) (s : State) : Host.Outcome State Fault Refusal :=
  .next (writePixel { s with dec := s.dec.executed (.run n) { s.dec.codec with run := n - 1 } })

end Sys2Proof.Machine
end

