-- ==== Sys2Proof/Machine/Header.lean ====
section
/-! DEFINITION. The header codec (spec/41_header.md) and the epilogue (spec/30_encoding.md R62). -/

namespace Sys2Proof.Machine

/-- R80: the four magic bytes, ASCII "qoif". -/
abbrev magic : List Byte := [0x71, 0x6F, 0x69, 0x66]

/-- R62: the eight bytes that end every encoded stream. -/
abbrev epilogue : List Byte := [0, 0, 0, 0, 0, 0, 0, 1]

/-- R81: the 14 bytes of a descriptor; nothing is checked. -/
def emitHeader (d : Descriptor) : List Byte :=
  magic ++ bytesBe32 d.width ++ bytesBe32 d.height ++ [d.channels, d.colorspace]

/-- R82, steps 3 to 6: the checks on the fields, in order. -/
def checkDescriptor (d : Descriptor) : Except ErrorKind Descriptor :=
  if d.width = 0 ∨ d.height = 0 then .error .zeroDimension
  else if d.channels ≠ 3 ∧ d.channels ≠ 4 then .error .invalidChannel
  else if d.colorspace ≠ 0 ∧ d.colorspace ≠ 1 then .error .invalidColorspace
  else .ok d

/-- R82: the descriptor in the first 14 bytes, or the first check that fails. Bytes past the 14th are not looked at (R83). -/
def parseHeader : List Byte → Except ErrorKind Descriptor
  | m0 :: m1 :: m2 :: m3 :: w0 :: w1 :: w2 :: w3 :: h0 :: h1 :: h2 :: h3 :: channels :: colorspace :: _ =>
    if [m0, m1, m2, m3] ≠ magic then .error .missingSignature
    else checkDescriptor
      { width := be32 w0 w1 w2 w3, height := be32 h0 h1 h2 h3, channels := channels, colorspace := colorspace }
  | _ => .error .tooSmall

/-- R32, R82: the header bytes of the decoder's input. -/
def headerWindow (s : State) : List Byte := s.strIn.window s.dec.inLen 0 Config.headerLen

end Sys2Proof.Machine
end

