-- ==== Sys2Proof/Machine/Decoder.lean ====
section
/-! DEFINITION. The decoder state machine around the opcodes: the step of one output pixel, the end of a job and the start of the three
commands that run on DEC (spec/44_decoder.md R135 to R142, R152, spec/45_commands.md R166, R167, R169). -/

namespace Sys2Proof.Machine

/-- R141: the step while a run lasts. -/
def replicateStep (s : State) : State :=
  writePixel { s with dec := { s.dec with codec := { s.dec.codec with run := s.dec.codec.run - 1 } } }

/-- R142, R143: the opcode at the cursor is fetched, decoded and executed. An opcode whose bytes the host did not supply
faults (log 2); by R39 an input that is complete never gives this. -/
def fetchStep (s : State) : Host.Outcome State Fault Refusal :=
  match decode (fetchWindow s) with
  | .ok (i, _) => exec i s
  | .error _ => .fault (.unreadableOpcode s.dec.cursor)

/-- R140: one step of the decoder, one output pixel. With no run pending and the input exhausted, `prev` is written again
and nothing else changes (R142). -/
def decodePixel (s : State) : Host.Outcome State Fault Refusal :=
  if 0 < s.dec.codec.run then .next (replicateStep s)
  else if s.dec.cursor < s.dec.lastTagCursor then fetchStep s
  else .next (writePixel s)

/-- R152: the job ends, whatever `cursor` and `run` are. -/
def finishDecode (s : State) : State := { s with dec := { s.dec with control := s.dec.control.finish } }

/-- The next move of DEC: a pixel while pixels are left, then the end of the job; nothing outside a job (R183, R214). -/
def decTurn (s : State) : Host.Outcome State Fault Refusal :=
  if s.dec.control.phase = .running then
    if s.dec.opos < s.dec.desc.pixelCount then decodePixel s else .next (finishDecode s)
  else .next s

/-- R180 for the decoder. -/
def raiseDec (k : ErrorKind) (s : State) : State := { s with dec := { s.dec with control := s.dec.control.raise k } }

/-- R204, R205: a command on DEC is taken together with its input stream. DESIGN CHOICE (log 25): the result bit of an earlier
IS_QOI stays until the next IS_QOI writes it; R23 and R24 do not say what it holds after another command. -/
def latchStream (stream : List Byte) (s : State) : State :=
  { s with
    strIn := Memory.ofBytes stream
    dec := { s.dec with inLen := stream.length, control := s.dec.control.start } }

/-- R82: the header parser writes the descriptor registers on success and nothing on an error. -/
def setDescriptor (d : Descriptor) (s : State) : State := { s with dec := { s.dec with desc := d } }

/-- R139: the decoder's initialisation. The granted output buffer holds no byte of this job yet (log 15). -/
def initDecode (s : State) : State :=
  { s with
    pixOut := []
    dec := { s.dec with
      codec := Codec.initial
      opos := 0
      cursor := Config.headerLen
      lastTagCursor := s.dec.inLen - Config.epilogueLen } }

/-- R138: the environment is asked for the output buffer; a refusal is OutOfMemory. -/
def requestBuffer (s : State) : State :=
  let s' := { s with dec := { s.dec with env := s.dec.env.advance } }
  if s.dec.accepts then initDecode s' else raiseDec .outOfMemory s'

/-- R169: DECODE up to its first step: header (R136), size check (R137), buffer (R138), initialisation (R139). -/
def startDecode (stream : List Byte) (s : State) : State :=
  let s1 := latchStream stream s
  match parseHeader (headerWindow s1) with
  | .error k => raiseDec k s1
  | .ok d =>
    let s2 := setDescriptor d s1
    if Config.maxPixels < d.pixelCount then raiseDec .imageTooLarge s2 else requestBuffer s2

/-- R167: PARSE_DESCRIPTOR is the header parser and nothing more. -/
def runParseDescriptor (stream : List Byte) (s : State) : State :=
  let s1 := latchStream stream s
  match parseHeader (headerWindow s1) with
  | .error k => raiseDec k s1
  | .ok d => finishDecode (setDescriptor d s1)

/-- R166: whether the header parses without error. -/
def headerParses (bytes : List Byte) : Bool :=
  match parseHeader bytes with
  | .ok _ => true
  | .error _ => false

/-- R166: IS_QOI runs the header parser on every input long enough; on a shorter one that is a free value (log 8). -/
def isQoiParses (inLen : Nat) : Bool := decide (Config.minQoiLen ≤ inLen) || Config.shortIsQoiParses

/-- DESIGN CHOICE (log 8): IS_QOI runs the header parser (92 D20), so on success the descriptor registers are written as in
R82, and on an error nothing is; R166, R170 and 92 D22 name only the result bit. -/
def latchParsed (s : State) : State :=
  match parseHeader (headerWindow s) with
  | .ok d => if isQoiParses s.dec.inLen then setDescriptor d s else s
  | .error _ => s

/-- R166: IS_QOI writes its result bit and never ends in ERROR; it writes no codec state. -/
def runIsQoi (stream : List Byte) (s : State) : State :=
  let s1 := latchStream stream s
  let result := decide (Config.minQoiLen ≤ stream.length) && headerParses (headerWindow s1)
  let s2 := latchParsed s1
  finishDecode { s2 with dec := { s2.dec with isQoi := result } }

end Sys2Proof.Machine
end

