-- ==== Sys2Proof/Machine/Encoder.lean ====
section
/-! DEFINITION. The encoder state machine (spec/43_encoder.md): opcode selection, the step of one pixel, the start and the end of a job. -/

namespace Sys2Proof.Machine

/-- R110: the current pixel, read from PIX_IN; none where the host did not supply its bytes. -/
def readPixel (s : State) : Option Pixel :=
  pixelOfBytes s.enc.desc.channels s.enc.codec.prev
    (s.pixIn.window s.enc.pixLen (pixelAddress s.enc.desc s.enc.pos) s.enc.desc.channels.toNat)

/-- R116 to R119, R123 (3) to (6): the opcode for a pixel that differs from `prev` and missed the index. -/
def selectOpcode (cur prev : Pixel) : Instr :=
  let (vr, vg, vb) := differences cur prev
  if cur.a = prev.a then
    if diffFits cur prev then .diff (s8 vr) (s8 vg) (s8 vb)
    else if lumaFits cur prev then .luma (s8 vg) (s8 (sub8 vr vg)) (s8 (sub8 vb vg))
    else .rgb cur.r cur.g cur.b
  else .rgba cur.r cur.g cur.b cur.a

/-- The encoder's run counter set. -/
def setRun (n : Nat) (s : State) : State := { s with enc := { s.enc with codec := { s.enc.codec with run := n } } }

/-- R109: the end of a step. -/
def nextPos (s : State) : State := { s with enc := { s.enc with pos := s.enc.pos + 1 } }

/-- R120: `prev <- cur`, at the end of every step that is no run step. -/
def setPrev (cur : Pixel) (s : State) : State := { s with enc := { s.enc with codec := { s.enc.codec with prev := cur } } }

/-- R114: `index[hash(cur)] <- cur`. -/
def insertCur (cur : Pixel) (s : State) : State := { s with enc := { s.enc with codec := s.enc.codec.insert cur } }

/-- R111, R112: a RUN opcode for the counted pixels, and the counter reset. -/
def emitRun (s : State) : Progress :=
  match append s (encode (.run s.enc.codec.run)) with
  | .go s' => .go (setRun 0 s')
  | .stop s' => .stop s'

/-- R111: the step of a pixel equal to `prev`. The index and `prev` stay. -/
def runStep (s : State) : State :=
  let s1 := setRun (s.enc.codec.run + 1) s
  if s1.enc.codec.run = Config.maxRun ∨ isLastPixel s.enc.desc s.enc.pos then (emitRun s1).andThen nextPos
  else nextPos s1

/-- R112: a pending run is emitted before the opcode of a different pixel. -/
def flushRun (s : State) : Progress := if 0 < s.enc.codec.run then emitRun s else .go s

/-- R113 to R120: the opcode of a pixel that differs from `prev`, and the end of its step. The lookup sees the table as the
previous step left it (R100). -/
def opcodeStep (cur : Pixel) (s : State) : State :=
  if s.enc.codec.entry (pixelHash cur) = cur then
    (append s (encode (.index (pixelHash cur)))).andThen fun s' => nextPos (setPrev cur s')
  else
    let s1 := insertCur cur s
    (append s1 (encode (selectOpcode cur s.enc.codec.prev))).andThen fun s' => nextPos (setPrev cur s')

/-- R109: one step of the encoder, for the pixel read. -/
def encodePixel (cur : Pixel) (s : State) : State :=
  if cur = s.enc.codec.prev then runStep s
  else (flushRun s).andThen (opcodeStep cur)

/-- R121: the epilogue and the end of the job. -/
def finishEncode (s : State) : State :=
  (append s epilogue).andThen fun s' => { s' with enc := { s'.enc with control := s'.enc.control.finish } }

/-- The next move of ENC: a pixel while pixels are left, then the end of the job; nothing outside a job (R183, R214). -/
def encTurn (s : State) : Host.Outcome State Fault Refusal :=
  if s.enc.control.phase = .running then
    if s.enc.pos < s.enc.desc.pixelCount then
      match readPixel s with
      | some cur => .next (encodePixel cur s)
      | none => .fault (.unreadablePixel s.enc.pos)
    else .next (finishEncode s)
  else .next s

/-- R180 for the encoder. -/
def raiseEnc (k : ErrorKind) (s : State) : State := { s with enc := { s.enc with control := s.enc.control.raise k } }

/-- R204, R205: ENCODE is taken together with its inputs. The sink of the new job is empty and `out_len` 0 from here on, so
that it is 0 after an error too (R106, R182; log 7). -/
def latchImage (d : Descriptor) (pixels : List Byte) (s : State) : State :=
  { s with
    pixIn := Memory.ofBytes pixels
    strOut := []
    enc := { s.enc with desc := d, pixLen := pixels.length, outLen := 0, control := s.enc.control.start } }

/-- R106: the checks made before anything is written, in order. -/
def encodeCheck (d : Descriptor) (pixLen : Nat) : Option ErrorKind :=
  if pixLen = 0 then some .emptyPixelBuffer
  else if d.pixelCount = 0 then some .zeroPixelCount
  else if Config.maxPixels < d.pixelCount then some .imageTooLarge
  else none

/-- R105: what the host must guarantee; a job that breaks it has no meaning (92 D7). -/
def encodePreconditions (d : Descriptor) (pixLen : Nat) : Bool :=
  (d.channels == 3 || d.channels == 4) && (d.colorspace == 0 || d.colorspace == 1)
    && pixLen == d.pixelCount * d.channels.toNat

/-- R107: the encoder's initialisation. -/
def initEncode (s : State) : State :=
  { s with enc := { s.enc with codec := Codec.initial, pos := 0, outLen := 0 } }

/-- R168: ENCODE up to its first step: checks (R106), preconditions (R105, after the checks), initialisation (R107), header
(R108). -/
def startEncode (d : Descriptor) (pixels : List Byte) (s : State) : Host.Outcome State Fault Refusal :=
  let s1 := latchImage d pixels s
  match encodeCheck d pixels.length with
  | some k => .next (raiseEnc k s1)
  | none =>
    if encodePreconditions d pixels.length then .next ((append (initEncode s1) (emitHeader d)).andThen id)
    else .refused .encodePrecondition

end Sys2Proof.Machine
end

