-- ==== Sys2Proof/Machine/Commands.lean ====
section
/-! DEFINITION. What reaches the machine from outside, and which agent moves (spec/45_commands.md R165, spec/70_reset_and_hazards.md
R204 to R207; log 4). -/

namespace Sys2Proof.Machine

/-- R165, D20: the agent a command runs on. -/
def Command.agent : Command → Agent
  | .isQoi _ => .dec
  | .parseDescriptor _ => .dec
  | .encode _ _ _ => .enc
  | .decode _ _ => .dec

/-- R43: whether the job's buffers overlap; IS_QOI and PARSE_DESCRIPTOR have no output buffer. -/
def Command.overlaps : Command → Bool
  | .isQoi _ => false
  | .parseDescriptor _ => false
  | .encode _ _ overlap => overlap
  | .decode _ overlap => overlap

/-- The phase of an agent (R21). -/
def State.phaseOf (s : State) : Agent → Phase
  | .enc => s.enc.control.phase
  | .dec => s.dec.control.phase

/-- A command that was accepted starts its job (R200), or, for IS_QOI and PARSE_DESCRIPTOR, is done at once (log 6). -/
def startCommand (c : Command) (s : State) : Host.Outcome State Fault Refusal :=
  match c with
  | .isQoi stream => .next (runIsQoi stream s)
  | .parseDescriptor stream => .next (runParseDescriptor stream s)
  | .encode d pixels _ => startEncode d pixels s
  | .decode stream _ => .next (startDecode stream s)

/-- R205, R206, R43: a command is refused while its agent is RUNNING, and where its buffers overlap. -/
def issueCommand (c : Command) (s : State) : Host.Outcome State Fault Refusal :=
  if s.phaseOf c.agent = .running then .refused (.commandWhileRunning c.agent)
  else if c.overlaps then .refused (.overlappingBuffers c.agent)
  else startCommand c s

/-- R206: the host may write an input buffer only outside a job. -/
def hostWrite (a : Agent) (addr : Nat) (byte : Byte) (s : State) : Host.Outcome State Fault Refusal :=
  if s.phaseOf a = .running then .refused (.inputChangedDuringJob a)
  else match a with
    | .enc => .next { s with pixIn := s.pixIn.write addr byte }
    | .dec => .next { s with strIn := s.strIn.write addr byte }

/-- R207, R21: the host has read the outputs of a job that is over. -/
def collect (a : Agent) (s : State) : Host.Outcome State Fault Refusal :=
  if s.phaseOf a = .running then .refused (.collectedDuringJob a)
  else match a with
    | .enc => .next { s with enc := { s.enc with control := s.enc.control.collected } }
    | .dec => .next { s with dec := { s.dec with control := s.dec.control.collected } }

/-- R9: the agent makes its next step. -/
def agentTurn (a : Agent) (s : State) : Host.Outcome State Fault Refusal :=
  match a with
  | .enc => encTurn s
  | .dec => decTurn s

/-- One input. -/
def takeInput (x : Input) (s : State) : Host.Outcome State Fault Refusal :=
  match x with
  | .command c => issueCommand c s
  | .hostWrite a addr byte => hostWrite a addr byte s
  | .collect a => collect a s
  | .turn a => agentTurn a s

/-- With no input left, DEC moves while it has a job, then ENC; with no job the machine rests (log 4). -/
def defaultTurn (s : State) : Host.Outcome State Fault Refusal :=
  if s.dec.control.phase = .running then decTurn s else encTurn s

/-- The descriptor under which one more output pixel can be written: the registers as they are if they allow it, else 1 x 1
pixels of 4 channels. -/
def descriptorForFetch (d : Dec) : Descriptor :=
  if d.opos < d.desc.pixelCount ∧ (d.desc.channels = 3 ∨ d.desc.channels = 4) then d.desc
  else { width := 1, height := 1, channels := 4, colorspace := 0 }

/-- The decoder about to fetch at its cursor: a job is running, no run is pending, a pixel is left, the input reaches far
enough that a tag may be read there, and the environment accepts the next write. -/
def Dec.readyToFetch (d : Dec) : Dec :=
  { d with
    desc := descriptorForFetch d
    opos := if d.opos < d.desc.pixelCount ∧ (d.desc.channels = 3 ∨ d.desc.channels = 4) then d.opos else 0
    codec := { d.codec with run := 0 }
    inLen := max d.inLen (d.cursor + 5 + Config.epilogueLen)
    lastTagCursor := max d.inLen (d.cursor + 5 + Config.epilogueLen) - Config.epilogueLen
    control := d.control.start
    env := { d.env with answers := true :: d.env.answers.tail } }

/-- The state with these bytes standing where DEC fetches next, so that its next step runs them (log 5). -/
def placeOpcode (s : State) (bs : List Byte) : State :=
  { s with strIn := s.strIn.writeBytes s.dec.cursor bs, dec := s.dec.readyToFetch, inputs := [] }

end Sys2Proof.Machine
end

