-- ==== Sys2Proof/Machine/Step.lean ====
section
/-! DEFINITION. One step of the machine: the next input is taken, or, with none left, an agent moves (spec/70_reset_and_hazards.md R201). -/

namespace Sys2Proof.Machine

/-- One step: three outcomes, a next state, a fault, a refusal. -/
def step (s : State) : Host.Outcome State Fault Refusal :=
  match s.inputs with
  | [] => defaultTurn s
  | x :: rest => takeInput x { s with inputs := rest }

/-- The state whose very next step fetches and runs the table word (log 5). -/
def State.withFetchWord (s : State) (nbits w : Nat) : State := placeOpcode s (tableBytes nbits w)

end Sys2Proof.Machine
end

