-- ==== Sys2Proof/Safety.lean ====
section
/-! DEFINITION. What holds of the core between steps, in the terms the statements use (spec/10_state.md, spec/20_memory.md, spec/42_index_table.md
R101), and what a safe step is. -/

namespace Sys2Proof.Machine

/-- A step that does not fault. A refusal is the model's answer to a breach of the host's duties and is no fault. -/
def SafeOutcome (o : Host.Outcome State Fault Refusal) : Prop := ∀ f : Fault, o ≠ .fault f

/-- R16, R106, R137: a descriptor under which a job runs. -/
structure Descriptor.Legal (d : Descriptor) : Prop where
  channels : d.channels = 3 ∨ d.channels = 4
  colorspace : d.colorspace = 0 ∨ d.colorspace = 1
  nonempty : 0 < d.pixelCount
  bounded : d.pixelCount ≤ Config.maxPixels

/-- R101: every entry holds a pixel of its own hash, or its initial value. -/
def Codec.Disciplined (c : Codec) : Prop := ∀ i : Fin 64, pixelHash (c.entry i) = i ∨ c.entry i = Pixel.clear

/-- R30: every address below `n` holds a byte. -/
def Memory.Covers (m : Memory) (n : Nat) : Prop := ∀ a, a < n → (m.read a).isSome

/-- R33, R34: the addresses that hold a byte are those below `n`. -/
def Memory.HoldsExactly (m : Memory) (n : Nat) : Prop := ∀ a, (m.read a).isSome ↔ a < n

/-- R22, R24: the status that goes with a phase; InvalidEncoding is never raised (R156). -/
structure Control.Coherent (c : Control) : Prop where
  running : c.phase = .running → c.status = .ok
  done : c.phase = .done → c.status = .ok
  error : c.phase = .error → c.status ≠ .ok
  neverInvalidEncoding : c.status ≠ .raised .invalidEncoding

/-- R44: the longest opcode of one pixel in a job of this channel count. -/
def Descriptor.pixelCost (d : Descriptor) : Nat := d.channels.toNat + 1

/-- The encoder during a job. -/
structure EncJob (s : State) : Prop where
  legal : s.enc.desc.Legal
  pixLen : s.enc.pixLen = s.enc.desc.pixelCount * s.enc.desc.channels.toNat
  input : s.pixIn.Covers s.enc.pixLen
  pos : s.enc.pos ≤ s.enc.desc.pixelCount
  run : s.enc.codec.run < Config.maxRun
  runCounted : s.enc.codec.run ≤ s.enc.pos
  flushed : s.enc.pos = s.enc.desc.pixelCount → s.enc.codec.run = 0
  alpha : s.enc.desc.channels = 3 → s.enc.codec.prev.a = 255
  output : s.strOut.HoldsExactly s.enc.outLen
  header : Config.headerLen ≤ s.enc.outLen
  emitted : 0 < s.enc.pos → Config.headerLen + 1 ≤ s.enc.outLen + s.enc.codec.run
  size : s.enc.outLen + (if 0 < s.enc.codec.run then 1 else 0) ≤ Config.headerLen + s.enc.pos * s.enc.desc.pixelCost

/-- R44: the encoder's output when its job has ended without error. -/
structure EncDone (s : State) : Prop where
  output : s.strOut.HoldsExactly s.enc.outLen
  least : Config.minQoiLen ≤ s.enc.outLen
  most : s.enc.outLen ≤ s.enc.desc.pixelCount * s.enc.desc.pixelCost + 22

/-- The decoder during a job. The bound on the cursor is R18's, but for an input too short to hold an opcode, where the
cursor stays at 14 (log 19). -/
structure DecJob (s : State) : Prop where
  legal : s.dec.desc.Legal
  opos : s.dec.opos ≤ s.dec.desc.pixelCount
  inLen : Config.headerLen ≤ s.dec.inLen
  lastTag : s.dec.lastTagCursor = s.dec.inLen - Config.epilogueLen
  cursorLow : Config.headerLen ≤ s.dec.cursor
  cursorHigh : s.dec.cursor ≤ max Config.headerLen (s.dec.inLen - 4)
  input : s.strIn.Covers s.dec.inLen
  output : s.pixOut.HoldsExactly (s.dec.opos * s.dec.desc.channels.toNat)

/-- What holds of the machine between steps. -/
structure State.Inv (s : State) : Prop where
  pixIn : s.pixIn.wf = true
  strOut : s.strOut.wf = true
  strIn : s.strIn.wf = true
  pixOut : s.pixOut.wf = true
  encIndex : s.enc.codec.Disciplined
  decIndex : s.dec.codec.Disciplined
  encRun : s.enc.codec.run ≤ Config.maxRun
  decRun : s.dec.codec.run < Config.maxRun
  encControl : s.enc.control.Coherent
  decControl : s.dec.control.Coherent
  encJob : s.enc.control.phase = .running → EncJob s
  encDone : s.enc.control.phase = .done → EncDone s
  decJob : s.dec.control.phase = .running → DecJob s

end Sys2Proof.Machine
end

