-- ==== Sys2Proof/Certificates/Slice0/Obligations.lean ====
section
/-! DEFINITION. The statements about the QOI codec core, for the provers; each docstring names the rule of spec/ it formalises. -/

namespace Sys2Proof.Machine

/-- DEC makes the next move of `s`, from the state `s0`: no input is left and it has a job, or the next input is its turn.
-/
def DecMoves (s s0 : State) : Prop :=
  (s.inputs = [] ∧ s.dec.control.phase = .running ∧ s0 = s) ∨
  ∃ rest, s.inputs = .turn .dec :: rest ∧ s0 = { s with inputs := rest }

/-- ENC makes the next move of `s`, from the state `s0`. -/
def EncMoves (s s0 : State) : Prop :=
  (s.inputs = [] ∧ s.dec.control.phase ≠ .running ∧ s0 = s) ∨
  ∃ rest, s.inputs = .turn .enc :: rest ∧ s0 = { s with inputs := rest }

/-- DEC is in a job with pixels left (R140). -/
def Dec.InLoop (d : Dec) : Prop := d.control.phase = .running ∧ d.opos < d.desc.pixelCount

/-- ENC is in a job with pixels left (R109). -/
def Enc.InLoop (e : Enc) : Prop := e.control.phase = .running ∧ e.pos < e.desc.pixelCount

/-- DEC fetches a tag in its next step (R142). -/
def Dec.Fetching (d : Dec) : Prop := d.InLoop ∧ d.codec.run = 0 ∧ d.cursor < d.lastTagCursor

/-- What a step of the decoder's loop leaves alone: the encoder, every memory but PIX_OUT, the inputs, and of DEC the
descriptor, the lengths, the result bit and the control registers. -/
structure LoopFrame (s t : State) : Prop where
  enc : t.enc = s.enc
  pixIn : t.pixIn = s.pixIn
  strOut : t.strOut = s.strOut
  strIn : t.strIn = s.strIn
  inputs : t.inputs = s.inputs
  inLen : t.dec.inLen = s.dec.inLen
  desc : t.dec.desc = s.dec.desc
  lastTagCursor : t.dec.lastTagCursor = s.dec.lastTagCursor
  isQoi : t.dec.isQoi = s.dec.isQoi
  control : t.dec.control = s.dec.control

/-- R151, R34: `prev` (as `t` has it) was written as output pixel number `opos` (of `s`), at `pixelAddress`, R G B (A) in
ascending order; every other byte of PIX_OUT reads as before; `opos` grew by 1. -/
structure PixelWritten (s t : State) : Prop where
  opos : t.dec.opos = s.dec.opos + 1
  red : s.dec.desc.channels = 3 ∨ s.dec.desc.channels = 4 →
    t.pixOut.read (pixelAddress s.dec.desc s.dec.opos) = some t.dec.codec.prev.r
  green : s.dec.desc.channels = 3 ∨ s.dec.desc.channels = 4 →
    t.pixOut.read (pixelAddress s.dec.desc s.dec.opos + 1) = some t.dec.codec.prev.g
  blue : s.dec.desc.channels = 3 ∨ s.dec.desc.channels = 4 →
    t.pixOut.read (pixelAddress s.dec.desc s.dec.opos + 2) = some t.dec.codec.prev.b
  alpha : s.dec.desc.channels = 4 →
    t.pixOut.read (pixelAddress s.dec.desc s.dec.opos + 3) = some t.dec.codec.prev.a
  elsewhere : ∀ a, ¬ (pixelAddress s.dec.desc s.dec.opos ≤ a
      ∧ a < pixelAddress s.dec.desc s.dec.opos + s.dec.desc.channels.toNat) →
    t.pixOut.read a = s.pixOut.read a

/-- R150: the entry of the new `prev`'s hash holds it; every other entry is the old one. -/
def IndexTakesPrev (s t : State) : Prop :=
  ∀ i : Fin 64, t.dec.codec.entry i =
    if i = pixelHash t.dec.codec.prev then t.dec.codec.prev else s.dec.codec.entry i

/-- The common part of the five opcodes that produce a pixel (R144 to R148, R150, R151): the new `prev`, the cursor's
advance, the index write, the output write, and nothing else. -/
structure Produced (s t : State) (p : Pixel) (len : Nat) : Prop where
  prev : t.dec.codec.prev = p
  run : t.dec.codec.run = s.dec.codec.run
  cursor : t.dec.cursor = s.dec.cursor + len
  index : IndexTakesPrev s t
  pixel : PixelWritten s t
  frame : LoopFrame s t

/-- What a move of ENC or an ENCODE command leaves alone: the decoder and its two memories. -/
structure DecUntouched (s t : State) : Prop where
  dec : t.dec = s.dec
  strIn : t.strIn = s.strIn
  pixOut : t.pixOut = s.pixOut

/-- What a move of DEC or a command on DEC leaves alone: the encoder and its two memories. -/
structure EncUntouched (s t : State) : Prop where
  enc : t.enc = s.enc
  pixIn : t.pixIn = s.pixIn
  strOut : t.strOut = s.strOut

/-- R33: exactly these bytes were appended to the sink: they stand at the old `out_len` and on, every other address reads
as before, and `out_len` grew by their number. -/
structure Appended (s t : State) (bs : List Byte) : Prop where
  outLen : t.enc.outLen = s.enc.outLen + bs.length
  bytes : ∀ k, k < bs.length → t.strOut.read (s.enc.outLen + k) = bs[k]?
  elsewhere : ∀ a, ¬ (s.enc.outLen ≤ a ∧ a < s.enc.outLen + bs.length) → t.strOut.read a = s.strOut.read a

/-- R33, R182: exactly these bytes were accepted by the sink. Nothing is said of the addresses from the new `out_len` on: a
refused append may leave anything there (93 U14). -/
structure AcceptedOnly (s t : State) (bs : List Byte) : Prop where
  outLen : t.enc.outLen = s.enc.outLen + bs.length
  bytes : ∀ k, k < bs.length → t.strOut.read (s.enc.outLen + k) = bs[k]?
  below : ∀ a, a < s.enc.outLen → t.strOut.read a = s.strOut.read a

/-- The registers no step of the encoder's loop changes (R109). -/
structure EncInputsKept (s t : State) : Prop where
  desc : t.enc.desc = s.enc.desc
  pixLen : t.enc.pixLen = s.enc.pixLen
  pixIn : t.pixIn = s.pixIn
  inputs : t.inputs = s.inputs
  decoder : DecUntouched s t

/-- The next answer but one of ENC's environment. -/
def Enc.acceptsNext (e : Enc) : Bool := e.env.advance.answer Config.encAnswer

/-- R113, R116 to R119, R123: the bytes of the opcode for a pixel `cur` that differs from `prev`, as the rules write them.
-/
structure OpcodeBytes (c : Codec) (cur : Pixel) (bs : List Byte) : Prop where
  index : c.entry (pixelHash cur) = cur → bs = [BitVec.ofNat 8 (pixelHash cur).val]
  diff : c.entry (pixelHash cur) ≠ cur → cur.a = c.prev.a →
    (∀ v ∈ [cur.r - c.prev.r, cur.g - c.prev.g, cur.b - c.prev.b], v ∈ [254#8, 255#8, 0#8, 1#8]) →
    bs = [0x40#8 ||| ((cur.r - c.prev.r + 2) <<< 4) ||| ((cur.g - c.prev.g + 2) <<< 2) ||| (cur.b - c.prev.b + 2)]
  luma : c.entry (pixelHash cur) ≠ cur → cur.a = c.prev.a →
    (∃ v ∈ [cur.r - c.prev.r, cur.g - c.prev.g, cur.b - c.prev.b], v ∉ [254#8, 255#8, 0#8, 1#8]) →
    ((cur.g - c.prev.g).toNat > 223 ∨ (cur.g - c.prev.g).toNat < 32) →
    (∀ v ∈ [(cur.r - c.prev.r) - (cur.g - c.prev.g), (cur.b - c.prev.b) - (cur.g - c.prev.g)],
      v.toNat > 247 ∨ v.toNat < 8) →
    bs = [0x80#8 ||| (cur.g - c.prev.g + 32),
      (((cur.r - c.prev.r) - (cur.g - c.prev.g) + 8) <<< 4) ||| ((cur.b - c.prev.b) - (cur.g - c.prev.g) + 8)]
  rgb : c.entry (pixelHash cur) ≠ cur → cur.a = c.prev.a →
    (∃ v ∈ [cur.r - c.prev.r, cur.g - c.prev.g, cur.b - c.prev.b], v ∉ [254#8, 255#8, 0#8, 1#8]) →
    ¬ (((cur.g - c.prev.g).toNat > 223 ∨ (cur.g - c.prev.g).toNat < 32) ∧
      ∀ v ∈ [(cur.r - c.prev.r) - (cur.g - c.prev.g), (cur.b - c.prev.b) - (cur.g - c.prev.g)],
        v.toNat > 247 ∨ v.toNat < 8) →
    bs = [0xFE#8, cur.r, cur.g, cur.b]
  rgba : c.entry (pixelHash cur) ≠ cur → cur.a ≠ c.prev.a → bs = [0xFF#8, cur.r, cur.g, cur.b, cur.a]

/-- R112: the bytes of a run that is pending. -/
def pendingRunBytes (run : Nat) : List Byte := if run = 0 then [] else [0xC0#8 ||| BitVec.ofNat 8 (run - 1)]

/-- The next input of `s` is this command. -/
def Issued (s : State) (c : Command) (rest : List Input) : Prop := s.inputs = .command c :: rest

/-- A job ended with this error before anything was written (R180, R182): only the control registers of the agent differ
from what latching the inputs left. -/
structure EncodeErrorAtStart (s t : State) (k : ErrorKind) : Prop where
  control : t.enc.control = ⟨.error, .raised k⟩
  outLen : t.enc.outLen = 0
  sink : ∀ a, t.strOut.read a = none
  codec : t.enc.codec = s.enc.codec
  pos : t.enc.pos = s.enc.pos
  env : t.enc.env = s.enc.env
  decoder : DecUntouched s t

/-- A command on DEC ended with this error before any working state was written. -/
structure DecErrorAtStart (s t : State) (k : ErrorKind) : Prop where
  control : t.dec.control = ⟨.error, .raised k⟩
  codec : t.dec.codec = s.dec.codec
  cursor : t.dec.cursor = s.dec.cursor
  lastTagCursor : t.dec.lastTagCursor = s.dec.lastTagCursor
  opos : t.dec.opos = s.dec.opos
  isQoi : t.dec.isQoi = s.dec.isQoi
  pixOut : t.pixOut = s.pixOut
  encoder : EncUntouched s t

/-- R182: the codec registers a command on DEC leaves when it does not decode. -/
structure CodecUntouched (s t : State) : Prop where
  codec : t.dec.codec = s.dec.codec
  cursor : t.dec.cursor = s.dec.cursor
  lastTagCursor : t.dec.lastTagCursor = s.dec.lastTagCursor
  opos : t.dec.opos = s.dec.opos
  env : t.dec.env = s.dec.env
  pixOut : t.pixOut = s.pixOut
  encoder : EncUntouched s t

/-- R80: the number at a header's offset, most significant byte first. -/
def headerNumber (bs : List Byte) (offset : Nat) : Nat :=
  (bs.getD offset 0).toNat * 2 ^ 24 + (bs.getD (offset + 1) 0).toNat * 2 ^ 16 + (bs.getD (offset + 2) 0).toNat * 2 ^ 8
    + (bs.getD (offset + 3) 0).toNat

end Sys2Proof.Machine

open Sys2Proof Sys2Proof.Machine

/-! Encoding. -/

/-- R51 to R58: decoding the bytes of a well-formed opcode gives the opcode and leaves the bytes after it. -/
def Obligations.DecodeOfEncode : Prop :=
  ∀ (i : Instr) (rest : List Byte), i.wellFormed = true → decode (encode i ++ rest) = .ok (i, rest)

/-- R51, R61: whatever is decoded is well formed, and encoding it gives the bytes it was decoded from: no two byte sequences
stand for one opcode. -/
def Obligations.EncodeOfDecode : Prop :=
  ∀ (bs : List Byte) (i : Instr) (rest : List Byte),
    decode bs = .ok (i, rest) → i.wellFormed = true ∧ encode i ++ rest = bs

/-- R61, R143, R51: every first byte starts an opcode whose length that byte alone fixes (0xFE 4, 0xFF 5, 0x80..0xBF 2,
every other 1), whatever the extra bytes are. -/
def Obligations.DecodeIsTotal : Prop :=
  ∀ (tag b1 b2 b3 b4 : Byte) (rest : List Byte), ∃ i : Instr,
    decode (tag :: b1 :: b2 :: b3 :: b4 :: rest) = .ok (i, (tag :: b1 :: b2 :: b3 :: b4 :: rest).drop i.length) ∧
    i.length = (if tag.toNat = 0xFE then 4 else if tag.toNat = 0xFF then 5
      else if 0x80 ≤ tag.toNat ∧ tag.toNat ≤ 0xBF then 2 else 1)

/-- R64, R52 to R57: the bytes of each opcode in the source's own formulas. -/
def Obligations.EncodedBytesAsFormulas : Prop :=
  (∀ h : Fin 64, encode (.index h) = [BitVec.ofNat 8 h.val]) ∧
  (∀ dr dg db : Int, (Instr.diff dr dg db).wellFormed = true →
    encode (.diff dr dg db) = [0x40#8 ||| (BitVec.ofInt 8 (dr + 2) <<< 4) ||| (BitVec.ofInt 8 (dg + 2) <<< 2)
      ||| BitVec.ofInt 8 (db + 2)]) ∧
  (∀ dg drg dbg : Int, (Instr.luma dg drg dbg).wellFormed = true →
    encode (.luma dg drg dbg) = [0x80#8 ||| BitVec.ofInt 8 (dg + 32),
      (BitVec.ofInt 8 (drg + 8) <<< 4) ||| BitVec.ofInt 8 (dbg + 8)]) ∧
  (∀ n : Nat, (Instr.run n).wellFormed = true → encode (.run n) = [0xC0#8 ||| BitVec.ofNat 8 (n - 1)]) ∧
  (∀ r g b : Byte, encode (.rgb r g b) = [0xFE#8, r, g, b]) ∧
  (∀ r g b a : Byte, encode (.rgba r g b a) = [0xFF#8, r, g, b, a])

/-- R60, R215, R124 (b): the byte of a RUN is 0xC0 to 0xFD, never the tag of RGB or RGBA. -/
def Obligations.RunByteIsNoFullTag : Prop :=
  ∀ n : Nat, (Instr.run n).wellFormed = true →
    ∃ t : Byte, encode (.run n) = [t] ∧ 0xC0 ≤ t.toNat ∧ t.toNat ≤ 0xFD ∧ t.toNat = 0xC0 + (n - 1)

/-- R52 to R57, the encodings written out bit by bit: one word of every opcode decodes to the opcode it stands for. -/
def Obligations.SampleWordsDecode : Prop :=
  decode [0b00001001] = .ok (.index 9, []) ∧
  decode [0b01000111] = .ok (.diff (-2) (-1) 1, []) ∧
  decode [0b10101010, 0b00011111] = .ok (.luma 10 (-7) 7, []) ∧
  decode [0b11111101] = .ok (.run 62, []) ∧
  decode [0b11111110, 10, 20, 30] = .ok (.rgb 10 20 30, []) ∧
  decode [0b11111111, 0, 1, 2, 128] = .ok (.rgba 0 1 2 128, [])

/-! The opcodes. -/

/-- R144, R56: RGB. The three bytes after 0xFE become red, green and blue in that order; alpha stays. -/
def Obligations.RgbExecutes : Prop :=
  ∀ (s : State) (r g b : Byte), s.dec.accepts = true →
    decode [0xFE, r, g, b] = .ok (.rgb r g b, []) ∧
    ∃ t, exec (.rgb r g b) s = .next t ∧ Produced s t ⟨r, g, b, s.dec.codec.prev.a⟩ 4

/-- R145, R57: RGBA. The four bytes after 0xFF become all of `prev`, whatever the header's channel count. -/
def Obligations.RgbaExecutes : Prop :=
  ∀ (s : State) (r g b a : Byte), s.dec.accepts = true →
    decode [0xFF, r, g, b, a] = .ok (.rgba r g b a, []) ∧
    ∃ t, exec (.rgba r g b a) s = .next t ∧ Produced s t ⟨r, g, b, a⟩ 5

/-- R146, R52: INDEX. `prev` becomes the entry whose number the whole byte is, alpha included. -/
def Obligations.IndexExecutes : Prop :=
  ∀ (s : State) (h : Fin 64), s.dec.accepts = true →
    decode [BitVec.ofNat 8 h.val] = .ok (.index h, []) ∧
    ∃ t, exec (.index h) s = .next t ∧ Produced s t (s.dec.codec.entry h) 1

/-- R147, R53: DIFF. Each colour moves by its two-bit field less 2, mod 256; alpha stays. The three fields take every value
the encoding admits. -/
def Obligations.DiffExecutes : Prop :=
  ∀ (s : State) (fr fg fb : BitVec 2), s.dec.accepts = true →
    decode [0b01#2 ++ fr ++ fg ++ fb]
      = .ok (.diff ((fr.toNat : Int) - 2) ((fg.toNat : Int) - 2) ((fb.toNat : Int) - 2), []) ∧
    ∃ t, exec (.diff ((fr.toNat : Int) - 2) ((fg.toNat : Int) - 2) ((fb.toNat : Int) - 2)) s = .next t ∧
      Produced s t
        ⟨s.dec.codec.prev.r + fr.setWidth 8 - 2, s.dec.codec.prev.g + fg.setWidth 8 - 2,
          s.dec.codec.prev.b + fb.setWidth 8 - 2, s.dec.codec.prev.a⟩ 1

/-- R148, R54: LUMA. With `gd` the six-bit field less 32, green moves by `gd`, red and blue by `gd - 8` plus their nibble of
the second byte, all mod 256 and from the old `prev`; alpha stays. The fields take every value the encoding admits. -/
def Obligations.LumaExecutes : Prop :=
  ∀ (s : State) (fg : BitVec 6) (fr fb : BitVec 4), s.dec.accepts = true →
    decode [0b10#2 ++ fg, fr ++ fb]
      = .ok (.luma ((fg.toNat : Int) - 32) ((fr.toNat : Int) - 8) ((fb.toNat : Int) - 8), []) ∧
    ∃ t, exec (.luma ((fg.toNat : Int) - 32) ((fr.toNat : Int) - 8) ((fb.toNat : Int) - 8)) s = .next t ∧
      Produced s t
        ⟨s.dec.codec.prev.r + (fg.setWidth 8 - 32) - 8 + fr.setWidth 8, s.dec.codec.prev.g + (fg.setWidth 8 - 32),
          s.dec.codec.prev.b + (fg.setWidth 8 - 32) - 8 + fb.setWidth 8, s.dec.codec.prev.a⟩ 2

/-- R149, R55: RUN. The payload, 0..61, becomes the run counter; `prev` and the index stay and `prev` is written. -/
def Obligations.RunExecutes : Prop :=
  ∀ (s : State) (f : BitVec 6), s.dec.accepts = true → f.toNat ≤ 61 →
    decode [0b11#2 ++ f] = .ok (.run (f.toNat + 1), []) ∧
    ∃ t, exec (.run (f.toNat + 1)) s = .next t ∧ t.dec.codec.run = f.toNat ∧
      t.dec.codec.prev = s.dec.codec.prev ∧ t.dec.codec.index = s.dec.codec.index ∧
      t.dec.cursor = s.dec.cursor + 1 ∧ PixelWritten s t ∧ LoopFrame s t

/-- R157, R180, R182: an opcode whose output write the environment refuses takes its job to ERROR with WriteFailed: the
pixel is not written and `opos` stays. That the codec registers and the cursor are then those of the accepted case, and that
PIX_OUT reads as before everywhere (93 U13 leaves the bytes no pixel was written to open), is log 12. -/
def Obligations.RefusedPixelWriteFails : Prop :=
  ∀ (s : State) (i : Instr), s.dec.accepts = false →
    ∃ t, exec i s = .next t ∧ t.dec.control = ⟨.error, .raised .writeFailed⟩ ∧ t.dec.opos = s.dec.opos ∧
      t.pixOut = s.pixOut ∧ EncUntouched s t ∧ t.strIn = s.strIn ∧ t.inputs = s.inputs ∧
      t.dec.cursor = s.dec.cursor + i.length ∧ t.dec.desc = s.dec.desc ∧ t.dec.inLen = s.dec.inLen ∧
      t.dec.lastTagCursor = s.dec.lastTagCursor ∧ t.dec.isQoi = s.dec.isQoi ∧
      ∀ (v : Env) (t' : State), exec i { s with dec := { s.dec with env := v } } = .next t' → t'.dec.codec = t.dec.codec

/-- R99: INDEX of an entry that still holds its initial value gives (0,0,0,0) and writes it to entry 0. That it does so too
where the output write is refused is log 12. -/
def Obligations.IndexOfUnwrittenEntryClearsEntryZero : Prop :=
  ∀ (s : State) (h : Fin 64), s.dec.codec.entry h = ⟨0, 0, 0, 0⟩ →
    ∃ t, exec (.index h) s = .next t ∧ t.dec.codec.prev = ⟨0, 0, 0, 0⟩ ∧ t.dec.codec.entry 0 = ⟨0, 0, 0, 0⟩ ∧
      ∀ i : Fin 64, i ≠ 0 → t.dec.codec.entry i = s.dec.codec.entry i

/-! The decoder's loop. -/

/-- R142, R143: when DEC moves with no run pending and the cursor below `last_tag_cursor`, and the bytes at the cursor
decode to an opcode, the step is that opcode's execution. -/
def Obligations.StepRunsDecodedOpcode : Prop :=
  ∀ (s s0 : State) (i : Instr) (rest : List Byte), DecMoves s s0 → s0.dec.Fetching →
    decode (fetchWindow s0) = .ok (i, rest) → step s = exec i s0

/-- R142, R35 (c): where STR_IN holds the bytes of a well-formed opcode from the cursor on, tag first, inside the input,
that opcode is what the decoder fetches. -/
def Obligations.FetchReadsStoredOpcode : Prop :=
  ∀ (s : State) (i : Instr), i.wellFormed = true → s.dec.cursor + i.length ≤ s.dec.inLen →
    (∀ k, k < i.length → s.strIn.read (s.dec.cursor + k) = (encode i)[k]?) →
    ∃ rest, decode (fetchWindow s) = .ok (i, rest)

/-- R39: in a job, a fetch always finds a whole opcode, and its bytes end at or before `in_len - 4`. -/
def Obligations.FetchStaysInsideInput : Prop :=
  ∀ s : State, DecJob s → s.dec.Fetching →
    ∃ i rest, decode (fetchWindow s) = .ok (i, rest) ∧ s.dec.cursor + i.length ≤ s.dec.inLen - 4

/-- R141: while a run lasts, a step counts it down and writes `prev` again; nothing is fetched. -/
def Obligations.RunIsReplicated : Prop :=
  ∀ s s0 : State, DecMoves s s0 → s0.dec.InLoop → 0 < s0.dec.codec.run → s0.dec.accepts = true →
    ∃ t, step s = .next t ∧ t.dec.codec.run = s0.dec.codec.run - 1 ∧ t.dec.codec.prev = s0.dec.codec.prev ∧
      t.dec.codec.index = s0.dec.codec.index ∧ t.dec.cursor = s0.dec.cursor ∧ PixelWritten s0 t ∧ LoopFrame s0 t

/-- R142: with no run pending and the cursor at or past `last_tag_cursor`, a step writes `prev` again and changes neither
`prev` nor the index nor the cursor. -/
def Obligations.ExhaustedInputRepeatsPrev : Prop :=
  ∀ s s0 : State, DecMoves s s0 → s0.dec.InLoop → s0.dec.codec.run = 0 → s0.dec.lastTagCursor ≤ s0.dec.cursor →
    s0.dec.accepts = true →
    ∃ t, step s = .next t ∧ t.dec.codec = s0.dec.codec ∧ t.dec.cursor = s0.dec.cursor ∧ PixelWritten s0 t ∧
      LoopFrame s0 t

/-- R151, R157, R180: a refused pixel write in a step that fetches nothing, a replication (R141) or a step of an exhausted
input (R142), takes the job to ERROR with WriteFailed; `opos` stays and the bytes of the pixels before it stand. That the
run counter is counted down all the same is log 12. -/
def Obligations.RefusedRepeatFails : Prop :=
  ∀ s s0 : State, DecMoves s s0 → s0.dec.InLoop →
    0 < s0.dec.codec.run ∨ s0.dec.codec.run = 0 ∧ s0.dec.lastTagCursor ≤ s0.dec.cursor → s0.dec.accepts = false →
    ∃ t, step s = .next t ∧ t.dec.control = ⟨.error, .raised .writeFailed⟩ ∧ t.dec.opos = s0.dec.opos ∧
      (∀ a, a < pixelAddress s0.dec.desc s0.dec.opos → t.pixOut.read a = s0.pixOut.read a) ∧
      t.dec.codec.run = s0.dec.codec.run - 1 ∧ t.dec.codec.prev = s0.dec.codec.prev ∧
      t.dec.codec.index = s0.dec.codec.index ∧ t.dec.cursor = s0.dec.cursor ∧ EncUntouched s0 t ∧ t.strIn = s0.strIn ∧
      t.inputs = s0.inputs ∧ t.dec.desc = s0.dec.desc ∧ t.dec.inLen = s0.dec.inLen ∧
      t.dec.lastTagCursor = s0.dec.lastTagCursor ∧ t.dec.isQoi = s0.dec.isQoi

/-- R149, R141: a RUN of `n` fetched at the cursor and the `n - 1` replications after it are `n` steps that write `n`
pixels, each a copy of `prev`, and consume one byte; `prev` and the index stay. (With no input left the steps are DEC's:
log 4.) -/
def Obligations.RunOpcodeWritesItsPixels : Prop :=
  ∀ (s : State) (n : Nat) (rest : List Byte) (more : List Bool), s.inputs = [] → s.dec.Fetching →
    decode (fetchWindow s) = .ok (.run n, rest) → s.dec.opos + n ≤ s.dec.desc.pixelCount →
    s.dec.env.answers = List.replicate n true ++ more →
    ∃ t, core.run n s = .next t ∧ t.dec.opos = s.dec.opos + n ∧ t.dec.codec.run = 0 ∧
      t.dec.codec.prev = s.dec.codec.prev ∧ t.dec.codec.index = s.dec.codec.index ∧ t.dec.cursor = s.dec.cursor + 1 ∧
      LoopFrame s t ∧
      (∀ k, k < n →
        (s.dec.desc.channels = 3 ∨ s.dec.desc.channels = 4 →
          t.pixOut.read (pixelAddress s.dec.desc (s.dec.opos + k)) = some s.dec.codec.prev.r ∧
          t.pixOut.read (pixelAddress s.dec.desc (s.dec.opos + k) + 1) = some s.dec.codec.prev.g ∧
          t.pixOut.read (pixelAddress s.dec.desc (s.dec.opos + k) + 2) = some s.dec.codec.prev.b) ∧
        (s.dec.desc.channels = 4 →
          t.pixOut.read (pixelAddress s.dec.desc (s.dec.opos + k) + 3) = some s.dec.codec.prev.a)) ∧
      ∀ a, ¬ (pixelAddress s.dec.desc s.dec.opos ≤ a ∧ a < pixelAddress s.dec.desc (s.dec.opos + n)) →
        t.pixOut.read a = s.pixOut.read a

/-- R152: when all pixels are written the job ends with OK, whatever the cursor and the run counter are; nothing else
changes. That the end is a step of its own is the model's choice (log 6). -/
def Obligations.DecodeJobFinishes : Prop :=
  ∀ s s0 : State, DecMoves s s0 → s0.dec.control.phase = .running → s0.dec.opos = s0.dec.desc.pixelCount →
    step s = .next { s0 with dec := { s0.dec with control := ⟨.done, .ok⟩ } }

/-! The encoder's loop. -/

/-- R110, R31: the current pixel is read from PIX_IN, R G B (A) ascending; with three channels alpha is that of `prev`. -/
def Obligations.CurrentPixelIsRead : Prop :=
  ∀ (s : State) (r g b a : Byte),
    s.pixIn.read (pixelAddress s.enc.desc s.enc.pos) = some r →
    s.pixIn.read (pixelAddress s.enc.desc s.enc.pos + 1) = some g →
    s.pixIn.read (pixelAddress s.enc.desc s.enc.pos + 2) = some b →
    (s.enc.desc.channels = 3 → pixelAddress s.enc.desc s.enc.pos + 3 ≤ s.enc.pixLen →
      readPixel s = some ⟨r, g, b, s.enc.codec.prev.a⟩) ∧
    (s.enc.desc.channels = 4 → pixelAddress s.enc.desc s.enc.pos + 4 ≤ s.enc.pixLen →
      s.pixIn.read (pixelAddress s.enc.desc s.enc.pos + 3) = some a → readPixel s = some ⟨r, g, b, a⟩)

/-- R111: the step of a pixel equal to `prev` counts it; at 62, or at the last pixel, one RUN byte with payload run-1 is
appended and the counter is reset; the index and `prev` stay. -/
def Obligations.EqualPixelExtendsRun : Prop :=
  ∀ s s0 : State, EncMoves s s0 → s0.enc.InLoop → readPixel s0 = some s0.enc.codec.prev →
    (s0.enc.codec.run + 1 ≠ 62 → s0.enc.pos + 1 ≠ s0.enc.desc.pixelCount →
      ∃ t, step s = .next t ∧ t.enc.codec.run = s0.enc.codec.run + 1 ∧ t.enc.codec.prev = s0.enc.codec.prev ∧
        t.enc.codec.index = s0.enc.codec.index ∧ t.enc.pos = s0.enc.pos + 1 ∧ t.enc.control = s0.enc.control ∧
        Appended s0 t [] ∧ EncInputsKept s0 t) ∧
    (s0.enc.codec.run + 1 = 62 ∨ s0.enc.pos + 1 = s0.enc.desc.pixelCount → s0.enc.codec.run < 62 →
      s0.enc.accepts = true →
      ∃ t, step s = .next t ∧ t.enc.codec.run = 0 ∧ t.enc.codec.prev = s0.enc.codec.prev ∧
        t.enc.codec.index = s0.enc.codec.index ∧ t.enc.pos = s0.enc.pos + 1 ∧ t.enc.control = s0.enc.control ∧
        Appended s0 t [0xC0#8 ||| BitVec.ofNat 8 s0.enc.codec.run] ∧ EncInputsKept s0 t)

/-- R109, R112 to R120, R123: the step of a pixel that differs from `prev`. A pending run is appended first, then the
bytes of the one opcode that the priority order selects (two appends with a run pending, else one); the index holds the
pixel at its hash and is unchanged elsewhere; `prev` is the pixel. -/
def Obligations.DifferentPixelIsEncoded : Prop :=
  ∀ (s s0 : State) (cur : Pixel), EncMoves s s0 → s0.enc.InLoop → readPixel s0 = some cur →
    cur ≠ s0.enc.codec.prev → s0.enc.codec.run < 62 → s0.enc.accepts = true →
    (0 < s0.enc.codec.run → s0.enc.acceptsNext = true) →
    ∃ t bs, step s = .next t ∧ OpcodeBytes s0.enc.codec cur bs ∧
      Appended s0 t (pendingRunBytes s0.enc.codec.run ++ bs) ∧
      t.enc.codec.run = 0 ∧ t.enc.codec.prev = cur ∧
      (∀ i : Fin 64, t.enc.codec.entry i = if i = pixelHash cur then cur else s0.enc.codec.entry i) ∧
      t.enc.pos = s0.enc.pos + 1 ∧ t.enc.control = s0.enc.control ∧ EncInputsKept s0 t

/-- R33, R176, R181: in the step of a pixel that differs from `prev`, an append the sink refuses ends the job with
WriteFailed and none of its bytes counts; a RUN byte accepted before it in the same step stays. What the codec registers
hold then is log 12. -/
def Obligations.RefusedAppendFails : Prop :=
  ∀ (s s0 : State) (cur : Pixel), EncMoves s s0 → s0.enc.InLoop → readPixel s0 = some cur → cur ≠ s0.enc.codec.prev →
    s0.enc.codec.run < 62 →
    (s0.enc.accepts = false →
      ∃ t, step s = .next t ∧ t.enc.control = ⟨.error, .raised .writeFailed⟩ ∧ AcceptedOnly s0 t [] ∧
        t.enc.pos = s0.enc.pos ∧ t.enc.codec.prev = s0.enc.codec.prev ∧ EncInputsKept s0 t) ∧
    (s0.enc.accepts = true → 0 < s0.enc.codec.run → s0.enc.acceptsNext = false →
      ∃ t, step s = .next t ∧ t.enc.control = ⟨.error, .raised .writeFailed⟩ ∧
        AcceptedOnly s0 t (pendingRunBytes s0.enc.codec.run) ∧ t.enc.codec.run = 0 ∧
        t.enc.pos = s0.enc.pos ∧ t.enc.codec.prev = s0.enc.codec.prev ∧ EncInputsKept s0 t)

/-- R111, R176, R181: in the step of a pixel equal to `prev`, the RUN of a count of 62 or of the last pixel that the sink
refuses ends the job with WriteFailed, and nothing counts as appended. That `run` keeps the count then, 62 included, is
log 12. -/
def Obligations.RefusedRunFails : Prop :=
  ∀ s s0 : State, EncMoves s s0 → s0.enc.InLoop → readPixel s0 = some s0.enc.codec.prev →
    s0.enc.codec.run + 1 = 62 ∨ s0.enc.pos + 1 = s0.enc.desc.pixelCount → s0.enc.accepts = false →
    ∃ t, step s = .next t ∧ t.enc.control = ⟨.error, .raised .writeFailed⟩ ∧ AcceptedOnly s0 t [] ∧
      t.enc.codec.run = s0.enc.codec.run + 1 ∧ t.enc.codec.prev = s0.enc.codec.prev ∧
      t.enc.codec.index = s0.enc.codec.index ∧ t.enc.pos = s0.enc.pos ∧ EncInputsKept s0 t

/-- R121, R176, R181: an epilogue the sink refuses ends the job with WriteFailed; `out_len` and the bytes accepted before
stand. -/
def Obligations.RefusedEpilogueFails : Prop :=
  ∀ s s0 : State, EncMoves s s0 → s0.enc.control.phase = .running → s0.enc.pos = s0.enc.desc.pixelCount →
    s0.enc.accepts = false →
    ∃ t, step s = .next t ∧ t.enc.control = ⟨.error, .raised .writeFailed⟩ ∧ AcceptedOnly s0 t [] ∧
      t.enc.codec = s0.enc.codec ∧ t.enc.pos = s0.enc.pos ∧ EncInputsKept s0 t

/-- R121, R62: after the last pixel the eight epilogue bytes are appended and the job is DONE with OK. That the end is a
step of its own is the model's choice (log 6). -/
def Obligations.EpilogueEndsEncode : Prop :=
  ∀ s s0 : State, EncMoves s s0 → s0.enc.control.phase = .running → s0.enc.pos = s0.enc.desc.pixelCount →
    s0.enc.accepts = true →
    ∃ t, step s = .next t ∧ t.enc.control = ⟨.done, .ok⟩ ∧ Appended s0 t [0, 0, 0, 0, 0, 0, 0, 1] ∧
      t.enc.codec = s0.enc.codec ∧ t.enc.pos = s0.enc.pos ∧ EncInputsKept s0 t

/-- R44: an ENCODE job that ends DONE has appended at least 23 and at most w*h*(channels+1)+22 bytes. -/
def Obligations.EncodedSizeIsBounded : Prop :=
  ∀ s t : State, s.Inv → s.enc.control.phase = .running → step s = .next t → t.enc.control.phase = .done →
    23 ≤ t.enc.outLen ∧
    t.enc.outLen ≤ t.enc.desc.width.toNat * t.enc.desc.height.toNat * (t.enc.desc.channels.toNat + 1) + 22

/-! Hash and arithmetic. -/

/-- R74, R73: the hash is the low six bits of the exact sum, and the same with every product and sum reduced mod 256 (8-bit
arithmetic) or mod 64 (6-bit arithmetic). -/
def Obligations.HashOnNarrowDatapaths : Prop :=
  ∀ p : Pixel,
    (pixelHash p).val = (3 * p.r.toNat + 5 * p.g.toNat + 7 * p.b.toNat + 11 * p.a.toNat) % 64 ∧
    (pixelHash p).val = (3 * p.r + 5 * p.g + 7 * p.b + 11 * p.a).toNat % 64 ∧
    (pixelHash p).val
      = (3 * p.r.setWidth 6 + 5 * p.g.setWidth 6 + 7 * p.b.setWidth 6 + 11 * p.a.setWidth 6).toNat

/-- R72, R10: the packed words of two pixels are equal exactly when the pixels are, in the order that the spec chose (92 D3,
log 26): `r` in the most significant byte down to `a`. -/
def Obligations.PackedIdentity : Prop :=
  (∀ p : Pixel, (packPixel p).toNat = p.r.toNat * 2 ^ 24 + p.g.toNat * 2 ^ 16 + p.b.toNat * 2 ^ 8 + p.a.toNat) ∧
  ∀ p q : Pixel, packPixel p = packPixel q ↔ p = q

/-- R75 (b): the range tests on bytes are the signed ranges, and the sets of representatives the source names. -/
def Obligations.RangeTestsAreSigned : Prop :=
  ∀ v : Byte,
    ((inDiffRange v = true ↔ -2 ≤ s8 v ∧ s8 v ≤ 1) ∧ (inDiffRange v = true ↔ v.toNat > 253 ∨ v.toNat < 2)) ∧
    ((inLumaGreenRange v = true ↔ -32 ≤ s8 v ∧ s8 v ≤ 31) ∧ (inLumaGreenRange v = true ↔ v.toNat > 223 ∨ v.toNat < 32)) ∧
    ((inLumaCrossRange v = true ↔ -8 ≤ s8 v ∧ s8 v ≤ 7) ∧ (inLumaCrossRange v = true ↔ v.toNat > 247 ∨ v.toNat < 8))

/-- R75 (d): with the green difference in LUMA's range, the 8-bit second-level difference is in range exactly when the
integer difference of the signed readings is. -/
def Obligations.SecondLevelDifference : Prop :=
  ∀ vr vg : Byte, inLumaGreenRange vg = true →
    (inLumaCrossRange (sub8 vr vg) = true ↔ -8 ≤ s8 vr - s8 vg ∧ s8 vr - s8 vg ≤ 7)

/-! Header. -/

/-- R86: parsing an emitted header gives the descriptor back, whatever follows it. -/
def Obligations.HeaderRoundTrip : Prop :=
  ∀ (d : Descriptor) (rest : List Byte), d.width ≠ 0 → d.height ≠ 0 → d.channels = 3 ∨ d.channels = 4 →
    d.colorspace = 0 ∨ d.colorspace = 1 → parseHeader (emitHeader d ++ rest) = .ok d

/-- R82, R80: the parser's checks in their order, and the big-endian descriptor when all pass. -/
def Obligations.HeaderChecksInOrder : Prop :=
  ∀ bs : List Byte,
    (bs.length < 14 → parseHeader bs = .error .tooSmall) ∧
    (14 ≤ bs.length → bs.take 4 ≠ [0x71, 0x6F, 0x69, 0x66] → parseHeader bs = .error .missingSignature) ∧
    (14 ≤ bs.length → bs.take 4 = [0x71, 0x6F, 0x69, 0x66] →
      (headerNumber bs 4 = 0 ∨ headerNumber bs 8 = 0 → parseHeader bs = .error .zeroDimension) ∧
      (headerNumber bs 4 ≠ 0 → headerNumber bs 8 ≠ 0 →
        (bs.getD 12 0 ≠ 3 → bs.getD 12 0 ≠ 4 → parseHeader bs = .error .invalidChannel) ∧
        (bs.getD 12 0 = 3 ∨ bs.getD 12 0 = 4 →
          (bs.getD 13 0 ≠ 0 → bs.getD 13 0 ≠ 1 → parseHeader bs = .error .invalidColorspace) ∧
          (bs.getD 13 0 = 0 ∨ bs.getD 13 0 = 1 →
            ∃ d, parseHeader bs = .ok d ∧ d.width.toNat = headerNumber bs 4 ∧ d.height.toNat = headerNumber bs 8 ∧
              d.channels = bs.getD 12 0 ∧ d.colorspace = bs.getD 13 0))))

/-! Commands. -/

/-- R168, R107, R108: an ENCODE job that passes its checks starts with the initial working state and the header as the
first 14 bytes of the sink. -/
def Obligations.EncodeJobStarts : Prop :=
  ∀ (s : State) (d : Descriptor) (pixels : List Byte) (rest : List Input),
    Issued s (.encode d pixels false) rest → s.enc.control.phase ≠ .running → d.Legal →
    pixels.length = d.width.toNat * d.height.toNat * d.channels.toNat → s.enc.accepts = true →
    ∃ t, step s = .next t ∧ t.enc.control = ⟨.running, .ok⟩ ∧ t.enc.desc = d ∧ t.enc.pixLen = pixels.length ∧
      t.enc.codec.prev = ⟨0, 0, 0, 255⟩ ∧ t.enc.codec.run = 0 ∧ t.enc.pos = 0 ∧ t.enc.outLen = 14 ∧
      (∀ i : Fin 64, t.enc.codec.entry i = ⟨0, 0, 0, 0⟩) ∧ (∀ a, t.pixIn.read a = pixels[a]?) ∧
      (∀ a, t.strOut.read a =
        ([0x71, 0x6F, 0x69, 0x66, d.width.extractLsb' 24 8, d.width.extractLsb' 16 8, d.width.extractLsb' 8 8,
          d.width.extractLsb' 0 8, d.height.extractLsb' 24 8, d.height.extractLsb' 16 8, d.height.extractLsb' 8 8,
          d.height.extractLsb' 0 8, d.channels, d.colorspace] : List Byte)[a]?) ∧
      DecUntouched s t ∧ t.inputs = rest

/-- R108, R107, R176: a header the sink refuses ends the job with WriteFailed, `out_len` 0; the inputs were taken and the
working state initialised, which R107 does before the header is written. -/
def Obligations.RefusedHeaderFails : Prop :=
  ∀ (s : State) (d : Descriptor) (pixels : List Byte) (rest : List Input),
    Issued s (.encode d pixels false) rest → s.enc.control.phase ≠ .running → d.Legal →
    pixels.length = d.width.toNat * d.height.toNat * d.channels.toNat → s.enc.accepts = false →
    ∃ t, step s = .next t ∧ t.enc.control = ⟨.error, .raised .writeFailed⟩ ∧ t.enc.outLen = 0 ∧ t.enc.desc = d ∧
      t.enc.pixLen = pixels.length ∧ (∀ a, t.pixIn.read a = pixels[a]?) ∧ t.enc.codec.prev = ⟨0, 0, 0, 255⟩ ∧
      t.enc.codec.run = 0 ∧ t.enc.pos = 0 ∧ (∀ i : Fin 64, t.enc.codec.entry i = ⟨0, 0, 0, 0⟩) ∧
      DecUntouched s t ∧ t.inputs = rest

/-- R106, R179: the encoder's checks in their order; after each error `out_len` is 0 and nothing stands in the sink. That
the sink of an accepted ENCODE is empty before the checks is log 7. -/
def Obligations.EncodeChecksInOrder : Prop :=
  ∀ (s : State) (d : Descriptor) (pixels : List Byte) (rest : List Input),
    Issued s (.encode d pixels false) rest → s.enc.control.phase ≠ .running →
    (pixels = [] → ∃ t, step s = .next t ∧ EncodeErrorAtStart s t .emptyPixelBuffer) ∧
    (pixels ≠ [] → d.width.toNat * d.height.toNat = 0 →
      ∃ t, step s = .next t ∧ EncodeErrorAtStart s t .zeroPixelCount) ∧
    (pixels ≠ [] → 400000000 < d.width.toNat * d.height.toNat →
      ∃ t, step s = .next t ∧ EncodeErrorAtStart s t .imageTooLarge)

/-- R105: after the three checks, a job whose channel count is not 3 or 4, whose colour space is not 0 or 1, or whose buffer
has not exactly w*h*channels bytes is refused. -/
def Obligations.EncodePreconditionsRefused : Prop :=
  ∀ (s : State) (d : Descriptor) (pixels : List Byte) (rest : List Input),
    Issued s (.encode d pixels false) rest → s.enc.control.phase ≠ .running → pixels ≠ [] →
    0 < d.width.toNat * d.height.toNat → d.width.toNat * d.height.toNat ≤ 400000000 →
    ((d.channels ≠ 3 ∧ d.channels ≠ 4) ∨ (d.colorspace ≠ 0 ∧ d.colorspace ≠ 1) ∨
      pixels.length ≠ d.width.toNat * d.height.toNat * d.channels.toNat) →
    step s = .refused .encodePrecondition

/-- R169, R139, R24: a DECODE job whose header is accepted and whose buffer is granted starts with the initial working
state, the cursor at 14 and `last_tag_cursor` at `in_len - 8`. -/
def Obligations.DecodeJobStarts : Prop :=
  ∀ (s : State) (d : Descriptor) (body : List Byte) (rest : List Input),
    Issued s (.decode (emitHeader d ++ body) false) rest → s.dec.control.phase ≠ .running → d.Legal →
    s.dec.accepts = true →
    ∃ t, step s = .next t ∧ t.dec.control = ⟨.running, .ok⟩ ∧ t.dec.desc = d ∧ t.dec.inLen = 14 + body.length ∧
      t.dec.cursor = 14 ∧ t.dec.lastTagCursor = 14 + body.length - 8 ∧ t.dec.opos = 0 ∧
      t.dec.codec.prev = ⟨0, 0, 0, 255⟩ ∧ t.dec.codec.run = 0 ∧
      (∀ i : Fin 64, t.dec.codec.entry i = ⟨0, 0, 0, 0⟩) ∧
      (∀ a, t.strIn.read a = (emitHeader d ++ body)[a]?) ∧ (∀ a, t.pixOut.read a = none) ∧
      EncUntouched s t ∧ t.inputs = rest

/-- R136, R137, R138, R179: DECODE's errors before its first step: a header error, then ImageTooLarge, then OutOfMemory
when the environment grants no buffer; no working state is written and PIX_OUT is untouched. The parser writes no
descriptor on an error (R82); that the registers then keep their old value is log 9, and that the IS_QOI bit keeps its is
log 25. -/
def Obligations.DecodeChecksInOrder : Prop :=
  ∀ (s : State) (stream : List Byte) (rest : List Input),
    Issued s (.decode stream false) rest → s.dec.control.phase ≠ .running →
    (∀ k, parseHeader stream = .error k → ∃ t, step s = .next t ∧ DecErrorAtStart s t k ∧ t.dec.desc = s.dec.desc) ∧
    (∀ d, parseHeader stream = .ok d →
      (400000000 < d.width.toNat * d.height.toNat → ∃ t, step s = .next t ∧ DecErrorAtStart s t .imageTooLarge) ∧
      (d.width.toNat * d.height.toNat ≤ 400000000 → s.dec.accepts = false →
        ∃ t, step s = .next t ∧ DecErrorAtStart s t .outOfMemory))

/-- R167, R82: PARSE_DESCRIPTOR gives the descriptor and DONE, or the framing error and ERROR, and writes no codec state.
That the descriptor registers keep their old value after an error is log 9, that the IS_QOI bit keeps its is log 25, that
it takes one step is log 6. -/
def Obligations.ParseDescriptorResult : Prop :=
  ∀ (s : State) (stream : List Byte) (rest : List Input),
    Issued s (.parseDescriptor stream) rest → s.dec.control.phase ≠ .running →
    ∃ t, step s = .next t ∧ CodecUntouched s t ∧ t.dec.isQoi = s.dec.isQoi ∧
      (∀ d, parseHeader stream = .ok d → t.dec.control = ⟨.done, .ok⟩ ∧ t.dec.desc = d) ∧
      (∀ k, parseHeader stream = .error k → t.dec.control = ⟨.error, .raised k⟩ ∧ t.dec.desc = s.dec.desc)

/-- R166: IS_QOI is DONE with OK whatever the stream is; its bit is set exactly when the stream has at least 23 bytes and
its header parses; no codec state is written. What it says of the descriptor registers is the model's choice (log 8), since
R166, R170 and 92 D22 name only the bit: a header that does not parse leaves them, one that parses is written to them from
23 bytes on, and below 23 bytes the model leaves open whether it is. That it takes one step is log 6. -/
def Obligations.IsQoiResult : Prop :=
  ∀ (s : State) (stream : List Byte) (rest : List Input),
    Issued s (.isQoi stream) rest → s.dec.control.phase ≠ .running →
    ∃ t, step s = .next t ∧ CodecUntouched s t ∧ t.dec.control = ⟨.done, .ok⟩ ∧
      (t.dec.isQoi = true ↔ 23 ≤ stream.length ∧ ∃ d, parseHeader stream = .ok d) ∧
      (∀ d, parseHeader stream = .ok d → 23 ≤ stream.length → t.dec.desc = d) ∧
      (∀ d, parseHeader stream = .ok d → t.dec.desc = d ∨ t.dec.desc = s.dec.desc) ∧
      (∀ k, parseHeader stream = .error k → t.dec.desc = s.dec.desc)

/-- R43, R206, R207: the host's breaches are refused by name: a command to an agent in RUNNING, a job with overlapping
buffers, a write to an input buffer during the job, a collection of results before the job is over. -/
def Obligations.HostBreachesAreRefused : Prop :=
  ∀ (s : State) (rest : List Input),
    (∀ c, Issued s c rest → s.phaseOf c.agent = .running → step s = .refused (.commandWhileRunning c.agent)) ∧
    (∀ d pixels, Issued s (.encode d pixels true) rest → s.enc.control.phase ≠ .running →
      step s = .refused (.overlappingBuffers .enc)) ∧
    (∀ stream, Issued s (.decode stream true) rest → s.dec.control.phase ≠ .running →
      step s = .refused (.overlappingBuffers .dec)) ∧
    (∀ a addr byte, s.inputs = .hostWrite a addr byte :: rest → s.phaseOf a = .running →
      step s = .refused (.inputChangedDuringJob a)) ∧
    (∀ a, s.inputs = .collect a :: rest → s.phaseOf a = .running → step s = .refused (.collectedDuringJob a))

/-- R21, R206, R207: the host's acts outside a job. A byte written to an input buffer stands at its address, every other
address reads as before and nothing else changes (log 24). Collecting the results of an agent in DONE takes its phase back
to IDLE and changes nothing else, the status stays readable (log 23); in ERROR it changes nothing, since only a new job
ends ERROR (R183). -/
def Obligations.HostActsOutsideJobs : Prop :=
  ∀ (s : State) (rest : List Input),
    (∀ addr byte, s.inputs = .hostWrite .enc addr byte :: rest → s.enc.control.phase ≠ .running →
      ∃ t, step s = .next t ∧ (∀ a, t.pixIn.read a = if a = addr then some byte else s.pixIn.read a) ∧
        t.enc = s.enc ∧ t.strOut = s.strOut ∧ DecUntouched s t ∧ t.inputs = rest) ∧
    (∀ addr byte, s.inputs = .hostWrite .dec addr byte :: rest → s.dec.control.phase ≠ .running →
      ∃ t, step s = .next t ∧ (∀ a, t.strIn.read a = if a = addr then some byte else s.strIn.read a) ∧
        t.dec = s.dec ∧ t.pixOut = s.pixOut ∧ EncUntouched s t ∧ t.inputs = rest) ∧
    (s.inputs = .collect .enc :: rest → s.enc.control.phase = .done →
      step s = .next { s with inputs := rest, enc := { s.enc with control := ⟨.idle, s.enc.control.status⟩ } }) ∧
    (s.inputs = .collect .enc :: rest → s.enc.control.phase = .error ∨ s.enc.control.phase = .idle →
      step s = .next { s with inputs := rest }) ∧
    (s.inputs = .collect .dec :: rest → s.dec.control.phase = .done →
      step s = .next { s with inputs := rest, dec := { s.dec with control := ⟨.idle, s.dec.control.status⟩ } }) ∧
    (s.inputs = .collect .dec :: rest → s.dec.control.phase = .error ∨ s.dec.control.phase = .idle →
      step s = .next { s with inputs := rest })

/-- R183, R214: outside RUNNING an agent's turn changes nothing: a job that ended, with or without an error, is never
resumed. -/
def Obligations.EndedJobIsNotResumed : Prop :=
  ∀ (s : State) (a : Agent) (rest : List Input), s.inputs = .turn a :: rest → s.phaseOf a ≠ .running →
    step s = .next { s with inputs := rest }

/-! The whole machine. -/

/-- R24, R202: at power-on both agents are IDLE with status OK. The other values are the model's choice (log 1). -/
def Obligations.ResetIsIdle : Prop :=
  State.reset.enc.control = ⟨.idle, .ok⟩ ∧ State.reset.dec.control = ⟨.idle, .ok⟩ ∧
  State.reset.pixIn = [] ∧ State.reset.strOut = [] ∧ State.reset.strIn = [] ∧ State.reset.pixOut = []

/-- The invariant of Safety.lean holds after reset (the reset values are those of log 1). -/
def Obligations.InvariantHoldsAtReset : Prop := State.reset.Inv

/-- The invariant of Safety.lean is kept by every step, whatever the inputs and the answers: canonical memories, disciplined
index tables (R101), the run counters' bounds (R14), coherent control registers (R22), the encoder's job (R16, R17, R44) and
the decoder's job (R18, R19, R20, R34). -/
def Obligations.StepKeepsInvariant : Prop :=
  ∀ s t : State, s.Inv → step s = .next t → t.Inv

/-- R39, R125, R206: from a state with the invariant no step faults, whatever the streams, the pixels and the answers are;
and a step that is refused takes an act of the host, never an agent's move. -/
def Obligations.StepNeverFaults : Prop :=
  ∀ s : State, s.Inv → SafeOutcome (step s) ∧
    ∀ r, step s = .refused r → ∃ x rest, s.inputs = x :: rest ∧ ∀ a, x ≠ .turn a

/-- R101: the discipline of both index tables is kept by every step from ANY state, canonical stream or not. -/
def Obligations.IndexDisciplineIsKept : Prop :=
  Codec.initial.Disciplined ∧
  ∀ s t : State, step s = .next t →
    (s.enc.codec.Disciplined → t.enc.codec.Disciplined) ∧ (s.dec.codec.Disciplined → t.dec.codec.Disciplined)

/-- R9, R41, R186: the agents share nothing: a move of one leaves the other and its memories alone, and what it does to its
own part depends on its own part only. -/
def Obligations.AgentsShareNothing : Prop :=
  (∀ s t : State, encTurn s = .next t → DecUntouched s t) ∧
  (∀ s t : State, decTurn s = .next t → EncUntouched s t) ∧
  (∀ s s' t : State, s'.enc = s.enc → s'.pixIn = s.pixIn → s'.strOut = s.strOut → encTurn s = .next t →
    ∃ t', encTurn s' = .next t' ∧ t'.enc = t.enc ∧ t'.strOut = t.strOut ∧ t'.pixIn = t.pixIn) ∧
  (∀ s s' t : State, s'.dec = s.dec → s'.strIn = s.strIn → s'.pixOut = s.pixOut → decTurn s = .next t →
    ∃ t', decTurn s' = .next t' ∧ t'.dec = t.dec ∧ t'.strIn = t.strIn ∧ t'.pixOut = t.pixOut)

/-- R214, R213: with no input left, every DECODE job ends, after at most one step per pixel left and one for its end, a
step of its own by log 6 (DEC moves by log 4). -/
def Obligations.DecodeJobEnds : Prop :=
  ∀ s : State, s.Inv → s.inputs = [] → s.dec.control.phase = .running →
    ∃ n t, n ≤ s.dec.desc.pixelCount - s.dec.opos + 1 ∧ core.run n s = .next t ∧ t.dec.control.phase.final = true

/-- R214, R213: with no input left and no decoder job, every ENCODE job ends, after at most one step per pixel left and one
for its end, a step of its own by log 6 (ENC moves by log 4). -/
def Obligations.EncodeJobEnds : Prop :=
  ∀ s : State, s.Inv → s.inputs = [] → s.dec.control.phase ≠ .running → s.enc.control.phase = .running →
    ∃ n t, n ≤ s.enc.desc.pixelCount - s.enc.pos + 1 ∧ core.run n s = .next t ∧ t.enc.control.phase.final = true

/-- R154, R58: the decoder inverts the encoder at every pixel that differs from `prev`. Where the two agents hold the same
`prev` and the same index, and the encoder meets a pixel that differs from `prev`, it appends the bytes of one well-formed
opcode, and that opcode, executed by the decoder, makes its `prev` the pixel and its index the encoder's. -/
def Obligations.DecoderFollowsEncoder : Prop :=
  ∀ (s : State) (cur : Pixel), s.dec.codec.prev = s.enc.codec.prev → s.dec.codec.index = s.enc.codec.index →
    cur ≠ s.enc.codec.prev → s.enc.accepts = true → s.dec.accepts = true →
    ∃ i t, i.wellFormed = true ∧ (opcodeStep cur s).strOut = s.strOut.writeBytes s.enc.outLen (encode i) ∧
      (opcodeStep cur s).enc.outLen = s.enc.outLen + i.length ∧
      exec i s = .next t ∧ t.dec.codec.prev = cur ∧ t.dec.codec.prev = (opcodeStep cur s).enc.codec.prev ∧
      t.dec.codec.index = (opcodeStep cur s).enc.codec.index

/-- R154, R111, R149: the decoder inverts the encoder at a RUN. Where the two agents hold the same `prev` and the same
index and a run of 1 to 62 is counted, the encoder appends the bytes of RUN with that length and keeps `prev` and the
index; the decoder that executes it keeps them too, writes one pixel and has the rest of the run to replicate
(RunOpcodeWritesItsPixels). -/
def Obligations.RunFollowsEncoder : Prop :=
  ∀ s : State, s.dec.codec.prev = s.enc.codec.prev → s.dec.codec.index = s.enc.codec.index →
    1 ≤ s.enc.codec.run → s.enc.codec.run ≤ 62 → s.enc.accepts = true → s.dec.accepts = true →
    (Instr.run s.enc.codec.run).wellFormed = true ∧
    ∃ t u, emitRun s = .go t ∧ Appended s t (encode (.run s.enc.codec.run)) ∧ t.enc.codec.run = 0 ∧
      t.enc.codec.prev = s.enc.codec.prev ∧ t.enc.codec.index = s.enc.codec.index ∧
      exec (.run s.enc.codec.run) s = .next u ∧ PixelWritten s u ∧ u.dec.codec.run + 1 = s.enc.codec.run ∧
      u.dec.codec.prev = t.enc.codec.prev ∧ u.dec.codec.index = t.enc.codec.index

/-- R154, R124 (c), R86: the round trip of whole jobs. For every legal descriptor and every pixel buffer of its size, an
ENCODE job that the sink never refuses ends DONE, and a DECODE job of exactly the bytes it left in the sink, granted and
never refused, ends DONE with the same descriptor and a bit-identical pixel buffer. The number of steps rests on log 6, the
schedule with no input left on log 4. -/
def Obligations.EncodeThenDecodeRestoresImage : Prop :=
  ∀ (s : State) (d : Descriptor) (pixels : List Byte), d.Legal →
    pixels.length = d.pixelCount * d.channels.toNat →
    s.inputs = [.command (.encode d pixels false)] → s.enc.control.phase ≠ .running →
    s.dec.control.phase ≠ .running → s.enc.env.answers = List.replicate (2 * d.pixelCount + 2) true →
    ∃ t stream, core.run (d.pixelCount + 2) s = .next t ∧ t.enc.control = ⟨.done, .ok⟩ ∧
      stream.length = t.enc.outLen ∧ (∀ a, t.strOut.read a = stream[a]?) ∧
      ∀ u : State, u.inputs = [.command (.decode stream false)] → u.dec.control.phase ≠ .running →
        u.dec.env.answers = List.replicate (d.pixelCount + 1) true →
        ∃ v, core.run (d.pixelCount + 2) u = .next v ∧ v.dec.control = ⟨.done, .ok⟩ ∧ v.dec.desc = d ∧
          ∀ a, v.pixOut.read a = pixels[a]?
end

