-- ==== Sys2Proof/Laws/Arith.lean ====
section
/-! SUPPORT. The laws of biased fields and of 8-bit arithmetic (spec/30_encoding.md R58, spec/40_pixel_hash.md R75). -/

namespace Sys2Proof

/-- R58: a biased field is recovered by subtracting its bias, when the value fits the field. -/
theorem unbias_biased (w : Nat) (bias d : Int) (low : 0 ≤ d + bias) (high : d + bias < 2 ^ w) :
    unbias bias (biased w bias d) = d := by
  simp only [unbias, biased, BitVec.toNat_ofInt]
  rw [Int.toNat_of_nonneg (Int.emod_nonneg _ (by positivity)), Int.emod_eq_of_lt low (by exact_mod_cast high)]
  omega

/-- R58: a field is the biased form of the value it carries. -/
theorem biased_unbias {w : Nat} (bias : Int) (f : BitVec w) : biased w bias (unbias bias f) = f := by
  simp [biased, unbias]

/-- The value of a field lies between the negated bias and the field's greatest value less the bias. -/
theorem unbias_range {w : Nat} (bias : Int) (f : BitVec w) : -bias ≤ unbias bias f ∧ unbias bias f < 2 ^ w - bias := by
  have h := f.isLt
  have h' : (f.toNat : Int) < 2 ^ w := by exact_mod_cast h
  simp only [unbias]
  omega

/-! Well-formedness as inequalities (R64). -/

theorem wellFormed_diff_iff (dr dg db : Int) : (Instr.diff dr dg db).wellFormed = true ↔
    (-2 ≤ dr ∧ dr ≤ 1) ∧ (-2 ≤ dg ∧ dg ≤ 1) ∧ -2 ≤ db ∧ db ≤ 1 := by
  simp [Instr.wellFormed, and_assoc]

theorem wellFormed_luma_iff (dg drg dbg : Int) : (Instr.luma dg drg dbg).wellFormed = true ↔
    (-32 ≤ dg ∧ dg ≤ 31) ∧ (-8 ≤ drg ∧ drg ≤ 7) ∧ -8 ≤ dbg ∧ dbg ≤ 7 := by
  simp [Instr.wellFormed, and_assoc]

theorem wellFormed_run_iff (n : Nat) : (Instr.run n).wellFormed = true ↔ 1 ≤ n ∧ n ≤ 62 := by
  rw [show (Instr.run n).wellFormed = (decide (1 ≤ n) && decide (n ≤ 62)) from rfl]
  simp

namespace Machine

/-- R75 (e): adding a signed quantity is `add8` of its residue. -/
theorem addSigned_eq_add8 (c : Byte) (d : Int) : addSigned c d = add8 c (BitVec.ofInt 8 d) := by
  simp [addSigned, add8, BitVec.ofInt_add]

/-- The signed reading of a byte is a representative of the byte mod 256. -/
theorem ofInt_s8 (v : Byte) : BitVec.ofInt 8 (s8 v) = v := by
  revert v; decide

/-- R75 (e), R115: the wrap-around difference, read as a signed number and added back, gives the new component. -/
theorem addSigned_s8_sub8 (cur prev : Byte) : addSigned prev (s8 (sub8 cur prev)) = cur := by
  simp [addSigned_eq_add8, ofInt_s8, add8, sub8]

end Machine

end Sys2Proof
end

