-- ==== Sys2Proof/Laws/State.lean ====
section
/-! SUPPORT. What each named update of the state writes and what it leaves, one equation per field. -/

namespace Sys2Proof.Machine

/-! Control registers. -/

@[simp] theorem Control.raise_phase (k : ErrorKind) (c : Control) : (c.raise k).phase = .error := rfl
@[simp] theorem Control.raise_status (k : ErrorKind) (c : Control) : (c.raise k).status = .raised k := rfl
@[simp] theorem Control.finish_phase (c : Control) : c.finish.phase = .done := rfl
@[simp] theorem Control.finish_status (c : Control) : c.finish.status = .ok := rfl
@[simp] theorem Control.start_phase (c : Control) : c.start.phase = .running := rfl
@[simp] theorem Control.start_status (c : Control) : c.start.status = .ok := rfl
@[simp] theorem Control.collected_phase (c : Control) :
    c.collected.phase = if c.phase = .done then .idle else c.phase := rfl
@[simp] theorem Control.collected_status (c : Control) : c.collected.status = c.status := rfl

/-! Codec registers. -/

@[simp] theorem Codec.insert_prev (c : Codec) (p : Pixel) : (c.insert p).prev = c.prev := rfl
@[simp] theorem Codec.insert_run (c : Codec) (p : Pixel) : (c.insert p).run = c.run := rfl
@[simp] theorem Codec.materialize_prev (c : Codec) (p : Pixel) : (c.materialize p).prev = p := rfl
@[simp] theorem Codec.materialize_run (c : Codec) (p : Pixel) : (c.materialize p).run = c.run := rfl
@[simp] theorem Codec.materialize_index (c : Codec) (p : Pixel) : (c.materialize p).index = (c.insert p).index := rfl
@[simp] theorem Codec.initial_prev : Codec.initial.prev = ⟨0, 0, 0, 255⟩ := rfl
@[simp] theorem Codec.initial_run : Codec.initial.run = 0 := rfl

/-! The decoder's registers after an opcode. -/

@[simp] theorem Dec.executed_cursor (d : Dec) (i : Instr) (c : Codec) : (d.executed i c).cursor = d.cursor + i.length := rfl
@[simp] theorem Dec.executed_codec (d : Dec) (i : Instr) (c : Codec) : (d.executed i c).codec = c := rfl
@[simp] theorem Dec.executed_desc (d : Dec) (i : Instr) (c : Codec) : (d.executed i c).desc = d.desc := rfl
@[simp] theorem Dec.executed_inLen (d : Dec) (i : Instr) (c : Codec) : (d.executed i c).inLen = d.inLen := rfl
@[simp] theorem Dec.executed_lastTagCursor (d : Dec) (i : Instr) (c : Codec) :
    (d.executed i c).lastTagCursor = d.lastTagCursor := rfl
@[simp] theorem Dec.executed_opos (d : Dec) (i : Instr) (c : Codec) : (d.executed i c).opos = d.opos := rfl
@[simp] theorem Dec.executed_isQoi (d : Dec) (i : Instr) (c : Codec) : (d.executed i c).isQoi = d.isQoi := rfl
@[simp] theorem Dec.executed_control (d : Dec) (i : Instr) (c : Codec) : (d.executed i c).control = d.control := rfl
@[simp] theorem Dec.executed_env (d : Dec) (i : Instr) (c : Codec) : (d.executed i c).env = d.env := rfl
@[simp] theorem Dec.executed_accepts (d : Dec) (i : Instr) (c : Codec) : (d.executed i c).accepts = d.accepts := rfl

/-! The encoder's updates: the fields each writes; every other field of the state is the old one by `rfl`. -/

@[simp] theorem setRun_enc_run (n : Nat) (s : State) : (setRun n s).enc.codec.run = n := rfl
@[simp] theorem setRun_enc_prev (n : Nat) (s : State) : (setRun n s).enc.codec.prev = s.enc.codec.prev := rfl
@[simp] theorem setRun_enc_index (n : Nat) (s : State) : (setRun n s).enc.codec.index = s.enc.codec.index := rfl
@[simp] theorem setRun_enc_pos (n : Nat) (s : State) : (setRun n s).enc.pos = s.enc.pos := rfl
@[simp] theorem setRun_enc_outLen (n : Nat) (s : State) : (setRun n s).enc.outLen = s.enc.outLen := rfl
@[simp] theorem setRun_enc_desc (n : Nat) (s : State) : (setRun n s).enc.desc = s.enc.desc := rfl
@[simp] theorem setRun_enc_pixLen (n : Nat) (s : State) : (setRun n s).enc.pixLen = s.enc.pixLen := rfl
@[simp] theorem setRun_enc_control (n : Nat) (s : State) : (setRun n s).enc.control = s.enc.control := rfl
@[simp] theorem setRun_enc_env (n : Nat) (s : State) : (setRun n s).enc.env = s.enc.env := rfl
@[simp] theorem setRun_enc_accepts (n : Nat) (s : State) : (setRun n s).enc.accepts = s.enc.accepts := rfl
@[simp] theorem setRun_dec (n : Nat) (s : State) : (setRun n s).dec = s.dec := rfl
@[simp] theorem setRun_strOut (n : Nat) (s : State) : (setRun n s).strOut = s.strOut := rfl
@[simp] theorem setRun_pixIn (n : Nat) (s : State) : (setRun n s).pixIn = s.pixIn := rfl
@[simp] theorem setRun_strIn (n : Nat) (s : State) : (setRun n s).strIn = s.strIn := rfl
@[simp] theorem setRun_pixOut (n : Nat) (s : State) : (setRun n s).pixOut = s.pixOut := rfl
@[simp] theorem setRun_inputs (n : Nat) (s : State) : (setRun n s).inputs = s.inputs := rfl

@[simp] theorem nextPos_enc_pos (s : State) : (nextPos s).enc.pos = s.enc.pos + 1 := rfl
@[simp] theorem nextPos_enc_codec (s : State) : (nextPos s).enc.codec = s.enc.codec := rfl
@[simp] theorem nextPos_enc_outLen (s : State) : (nextPos s).enc.outLen = s.enc.outLen := rfl
@[simp] theorem nextPos_enc_desc (s : State) : (nextPos s).enc.desc = s.enc.desc := rfl
@[simp] theorem nextPos_enc_pixLen (s : State) : (nextPos s).enc.pixLen = s.enc.pixLen := rfl
@[simp] theorem nextPos_enc_control (s : State) : (nextPos s).enc.control = s.enc.control := rfl
@[simp] theorem nextPos_enc_env (s : State) : (nextPos s).enc.env = s.enc.env := rfl
@[simp] theorem nextPos_dec (s : State) : (nextPos s).dec = s.dec := rfl
@[simp] theorem nextPos_strOut (s : State) : (nextPos s).strOut = s.strOut := rfl
@[simp] theorem nextPos_pixIn (s : State) : (nextPos s).pixIn = s.pixIn := rfl
@[simp] theorem nextPos_strIn (s : State) : (nextPos s).strIn = s.strIn := rfl
@[simp] theorem nextPos_pixOut (s : State) : (nextPos s).pixOut = s.pixOut := rfl
@[simp] theorem nextPos_inputs (s : State) : (nextPos s).inputs = s.inputs := rfl

@[simp] theorem setPrev_enc_prev (p : Pixel) (s : State) : (setPrev p s).enc.codec.prev = p := rfl
@[simp] theorem setPrev_enc_run (p : Pixel) (s : State) : (setPrev p s).enc.codec.run = s.enc.codec.run := rfl
@[simp] theorem setPrev_enc_index (p : Pixel) (s : State) : (setPrev p s).enc.codec.index = s.enc.codec.index := rfl
@[simp] theorem setPrev_enc_pos (p : Pixel) (s : State) : (setPrev p s).enc.pos = s.enc.pos := rfl
@[simp] theorem setPrev_enc_outLen (p : Pixel) (s : State) : (setPrev p s).enc.outLen = s.enc.outLen := rfl
@[simp] theorem setPrev_enc_desc (p : Pixel) (s : State) : (setPrev p s).enc.desc = s.enc.desc := rfl
@[simp] theorem setPrev_enc_pixLen (p : Pixel) (s : State) : (setPrev p s).enc.pixLen = s.enc.pixLen := rfl
@[simp] theorem setPrev_enc_control (p : Pixel) (s : State) : (setPrev p s).enc.control = s.enc.control := rfl
@[simp] theorem setPrev_enc_env (p : Pixel) (s : State) : (setPrev p s).enc.env = s.enc.env := rfl
@[simp] theorem setPrev_dec (p : Pixel) (s : State) : (setPrev p s).dec = s.dec := rfl
@[simp] theorem setPrev_strOut (p : Pixel) (s : State) : (setPrev p s).strOut = s.strOut := rfl
@[simp] theorem setPrev_pixIn (p : Pixel) (s : State) : (setPrev p s).pixIn = s.pixIn := rfl
@[simp] theorem setPrev_strIn (p : Pixel) (s : State) : (setPrev p s).strIn = s.strIn := rfl
@[simp] theorem setPrev_pixOut (p : Pixel) (s : State) : (setPrev p s).pixOut = s.pixOut := rfl
@[simp] theorem setPrev_inputs (p : Pixel) (s : State) : (setPrev p s).inputs = s.inputs := rfl

@[simp] theorem insertCur_enc_codec (p : Pixel) (s : State) : (insertCur p s).enc.codec = s.enc.codec.insert p := rfl
@[simp] theorem insertCur_enc_pos (p : Pixel) (s : State) : (insertCur p s).enc.pos = s.enc.pos := rfl
@[simp] theorem insertCur_enc_outLen (p : Pixel) (s : State) : (insertCur p s).enc.outLen = s.enc.outLen := rfl
@[simp] theorem insertCur_enc_desc (p : Pixel) (s : State) : (insertCur p s).enc.desc = s.enc.desc := rfl
@[simp] theorem insertCur_enc_pixLen (p : Pixel) (s : State) : (insertCur p s).enc.pixLen = s.enc.pixLen := rfl
@[simp] theorem insertCur_enc_control (p : Pixel) (s : State) : (insertCur p s).enc.control = s.enc.control := rfl
@[simp] theorem insertCur_enc_env (p : Pixel) (s : State) : (insertCur p s).enc.env = s.enc.env := rfl
@[simp] theorem insertCur_enc_accepts (p : Pixel) (s : State) : (insertCur p s).enc.accepts = s.enc.accepts := rfl
@[simp] theorem insertCur_dec (p : Pixel) (s : State) : (insertCur p s).dec = s.dec := rfl
@[simp] theorem insertCur_strOut (p : Pixel) (s : State) : (insertCur p s).strOut = s.strOut := rfl
@[simp] theorem insertCur_pixIn (p : Pixel) (s : State) : (insertCur p s).pixIn = s.pixIn := rfl
@[simp] theorem insertCur_strIn (p : Pixel) (s : State) : (insertCur p s).strIn = s.strIn := rfl
@[simp] theorem insertCur_pixOut (p : Pixel) (s : State) : (insertCur p s).pixOut = s.pixOut := rfl
@[simp] theorem insertCur_inputs (p : Pixel) (s : State) : (insertCur p s).inputs = s.inputs := rfl

/-! Progress. -/

@[simp] theorem Progress.andThen_go (s : State) (f : State → State) : (Progress.go s).andThen f = f s := rfl
@[simp] theorem Progress.andThen_stop (s : State) (f : State → State) : (Progress.stop s).andThen f = s := rfl

/-! The environment's answers. -/

@[simp] theorem Env.answer_cons (free : Nat → Bool) (a : Bool) (l : List Bool) (n : Nat) :
    Env.answer free ⟨a :: l, n⟩ = a := rfl
@[simp] theorem Env.answer_nil (free : Nat → Bool) (n : Nat) : Env.answer free ⟨[], n⟩ = free n := rfl
@[simp] theorem Env.advance_answers (v : Env) : v.advance.answers = v.answers.tail := rfl
@[simp] theorem Env.advance_draws (v : Env) : v.advance.draws = v.draws + 1 := rfl

end Sys2Proof.Machine
end

