-- ==== Sys2Proof/Laws/Codec.lean ====
section
/-! SUPPORT. The laws of the running index: what an insertion leaves in each entry, and the discipline of R101 kept by it. -/

namespace Sys2Proof.Machine

/-- R98, R99: after an insertion the entry of the pixel's hash holds the pixel and every other entry is the old one. -/
theorem Codec.entry_insert (c : Codec) (p : Pixel) (i : Fin 64) :
    (c.insert p).entry i = if i = pixelHash p then p else c.entry i := by
  simp only [Codec.entry, Codec.insert, Fin.getElem_fin, Vector.getElem_set, Fin.ext_iff]
  by_cases h : (pixelHash p).val = i.val
  · simp [h]
  · simp [h, Ne.symm h]

@[simp] theorem Codec.entry_materialize (c : Codec) (p : Pixel) (i : Fin 64) :
    (c.materialize p).entry i = (c.insert p).entry i := rfl

@[simp] theorem Codec.entry_initial (i : Fin 64) : Codec.initial.entry i = Pixel.clear := by
  simp [Codec.entry, Codec.initial]

/-- Two tables with the same entries are the same table. -/
theorem Codec.index_ext {c d : Codec} (h : ∀ i, c.entry i = d.entry i) : c.index = d.index := by
  apply Vector.ext
  intro i hi
  exact h ⟨i, hi⟩

/-- The entries are determined by the table. -/
theorem Codec.entry_congr {c d : Codec} (h : c.index = d.index) (i : Fin 64) : c.entry i = d.entry i := by
  simp [Codec.entry, h]

/-- Inserting a pixel that its entry already holds changes nothing (R98, 90 C4). -/
theorem Codec.insert_of_hit (c : Codec) (p : Pixel) (h : c.entry (pixelHash p) = p) : (c.insert p).index = c.index := by
  apply Codec.index_ext
  intro i
  rw [Codec.entry_insert]
  split_ifs with hi
  · rw [hi, h]
  · rfl

/-- R101: every insertion keeps the discipline. -/
theorem Codec.Disciplined.insert {c : Codec} (h : c.Disciplined) (p : Pixel) : (c.insert p).Disciplined := by
  intro i
  rw [Codec.entry_insert]
  split_ifs with hi
  · exact .inl hi.symm
  · exact h i

theorem Codec.Disciplined.materialize {c : Codec} (h : c.Disciplined) (p : Pixel) : (c.materialize p).Disciplined :=
  h.insert p

theorem Codec.disciplined_initial : Codec.initial.Disciplined := fun i => .inr (Codec.entry_initial i)

end Sys2Proof.Machine
end

