-- ==== Sys2Proof/Laws/Memory.lean ====
section
/-! SUPPORT. The laws of an address space: a read after a write, reads elsewhere, and the canonical form kept by every operation. -/

namespace Sys2Proof.Machine

@[simp] theorem Memory.read_nil (a : Nat) : Memory.read [] a = none := rfl

theorem Memory.read_cons (c : Nat) (v : Byte) (m : Memory) (a : Nat) :
    Memory.read ((c, v) :: m) a = if c = a then some v else Memory.read m a := rfl

/-- A read after a write: the byte written at its address, the old byte elsewhere. -/
theorem Memory.read_write (m : Memory) (addr : Nat) (v : Byte) (a : Nat) :
    (m.write addr v).read a = if a = addr then some v else m.read a := by
  induction m with
  | nil => simp [Memory.write, Memory.read_cons, eq_comm]
  | cons c m ih =>
    obtain ⟨k, w⟩ := c
    simp only [Memory.write]
    split_ifs <;> simp only [Memory.read_cons, ih] <;> split_ifs <;> first | rfl | omega

@[simp] theorem Memory.read_write_same (m : Memory) (addr : Nat) (v : Byte) : (m.write addr v).read addr = some v := by
  simp [Memory.read_write]

theorem Memory.read_write_other (m : Memory) {addr a : Nat} (v : Byte) (h : a ≠ addr) :
    (m.write addr v).read a = m.read a := by
  simp [Memory.read_write, h]

/-- Reads after a write of several bytes. -/
theorem Memory.read_writeBytes (m : Memory) (addr : Nat) (vs : List Byte) (a : Nat) :
    (m.writeBytes addr vs).read a = if addr ≤ a ∧ a < addr + vs.length then vs[a - addr]? else m.read a := by
  induction vs generalizing m addr with
  | nil =>
    rw [Memory.writeBytes, if_neg]
    simp only [List.length_nil]
    omega
  | cons v vs ih =>
    rw [Memory.writeBytes, ih, Memory.read_write]
    simp only [List.length_cons]
    by_cases h : a = addr
    · subst h
      rw [if_neg (by omega), if_pos rfl, if_pos (by omega)]
      simp
    · by_cases h' : addr + 1 ≤ a ∧ a < addr + 1 + vs.length
      · rw [if_pos h', if_pos (by omega)]
        obtain ⟨n, rfl⟩ : ∃ n, a = addr + 1 + n := ⟨a - (addr + 1), by omega⟩
        simp [show addr + 1 + n - addr = n + 1 by omega]
      · rw [if_neg h', if_neg h, if_neg (by omega)]

theorem Memory.read_writeBytes_outside (m : Memory) {addr a : Nat} (vs : List Byte)
    (h : ¬ (addr ≤ a ∧ a < addr + vs.length)) : (m.writeBytes addr vs).read a = m.read a := by
  rw [Memory.read_writeBytes, if_neg h]

theorem Memory.read_writeBytes_inside (m : Memory) (addr : Nat) (vs : List Byte) (k : Nat) (h : k < vs.length) :
    (m.writeBytes addr vs).read (addr + k) = vs[k]? := by
  rw [Memory.read_writeBytes, if_pos (by omega)]
  simp

theorem Memory.read_cellsFrom (addr : Nat) (bs : List Byte) (a : Nat) :
    (Memory.cellsFrom addr bs).read a = if addr ≤ a then bs[a - addr]? else none := by
  induction bs generalizing addr with
  | nil => simp [Memory.cellsFrom]
  | cons b bs ih =>
    rw [Memory.cellsFrom, Memory.read_cons, ih]
    by_cases h : addr = a
    · subst h; simp
    · by_cases h' : addr + 1 ≤ a
      · rw [if_neg h, if_pos h', if_pos (by omega)]
        obtain ⟨n, rfl⟩ : ∃ n, a = addr + 1 + n := ⟨a - (addr + 1), by omega⟩
        simp [show addr + 1 + n - addr = n + 1 by omega]
      · rw [if_neg h, if_neg h', if_neg (by omega)]

/-- A buffer of given bytes reads as those bytes and holds no other. -/
@[simp] theorem Memory.read_ofBytes (bs : List Byte) (a : Nat) : (Memory.ofBytes bs).read a = bs[a]? := by
  simp [Memory.ofBytes, Memory.read_cellsFrom]

/-- Bytes written in two parts. -/
theorem Memory.writeBytes_append (m : Memory) (addr : Nat) (xs ys : List Byte) :
    m.writeBytes addr (xs ++ ys) = (m.writeBytes addr xs).writeBytes (addr + xs.length) ys := by
  induction xs generalizing m addr with
  | nil => rfl
  | cons x xs ih =>
    simp only [List.cons_append, Memory.writeBytes, ih, List.length_cons]
    congr 1
    omega

/-! The canonical form. -/

/-- The canonical form as a property of the addresses: what an unlisted address reads as is no byte (log 2). -/
theorem Memory.wf_iff_rising (m : Memory) : m.wf = true ↔ (m.map (fun c => c.1)).Pairwise (· < ·) := by
  induction m with
  | nil => simp [Memory.wf]
  | cons c m ih =>
    cases m with
    | nil => simp [Memory.wf, Memory.unlisted]
    | cons c' m =>
      simp only [Memory.wf, Memory.unlisted, Bool.and_eq_true, decide_eq_true_eq, ih, List.map_cons,
        List.pairwise_cons, List.mem_cons]
      constructor
      · rintro ⟨⟨h, -⟩, h', h''⟩
        refine ⟨?_, h', h''⟩
        rintro x (rfl | hx)
        · exact h
        · exact Nat.lt_trans h (h' x hx)
      · rintro ⟨h, h', h''⟩
        exact ⟨⟨h _ (Or.inl rfl), by simp⟩, h', h''⟩

theorem Memory.mem_write_addr (m : Memory) (addr : Nat) (v : Byte) (x : Nat)
    (h : x ∈ (m.write addr v).map (fun c => c.1)) : x = addr ∨ x ∈ m.map (fun c => c.1) := by
  induction m with
  | nil => simpa [Memory.write] using h
  | cons c m ih =>
    obtain ⟨k, w⟩ := c
    simp only [Memory.write] at h
    split_ifs at h <;> simp only [List.map_cons, List.mem_cons] at h ⊢
    · tauto
    · tauto
    · rcases h with h | h
      · exact .inr (.inl h)
      · exact (ih h).imp_right .inr

/-- A write keeps the canonical form. -/
theorem Memory.wf_write (m : Memory) (addr : Nat) (v : Byte) (h : m.wf = true) : (m.write addr v).wf = true := by
  rw [Memory.wf_iff_rising] at h ⊢
  induction m with
  | nil => simp [Memory.write]
  | cons c m ih =>
    obtain ⟨k, w⟩ := c
    obtain ⟨h1, h2⟩ := List.pairwise_cons.1 h
    simp only [Memory.write]
    split_ifs with hlt heq
    · refine List.pairwise_cons.2 ⟨fun x hx => ?_, h⟩
      rcases List.mem_cons.1 hx with rfl | hx
      · exact hlt
      · exact Nat.lt_trans hlt (h1 x hx)
    · subst heq
      exact List.pairwise_cons.2 ⟨h1, h2⟩
    · refine List.pairwise_cons.2 ⟨fun x hx => ?_, ih h2⟩
      rcases Memory.mem_write_addr m addr v x hx with rfl | hx
      · exact lt_of_le_of_ne (Nat.le_of_not_lt hlt) (Ne.symm heq)
      · exact h1 x hx

theorem Memory.wf_writeBytes (m : Memory) (addr : Nat) (vs : List Byte) (h : m.wf = true) :
    (m.writeBytes addr vs).wf = true := by
  induction vs generalizing m addr with
  | nil => exact h
  | cons v vs ih => exact ih _ _ (Memory.wf_write m addr v h)

theorem Memory.wf_cellsFrom (addr : Nat) (bs : List Byte) : (Memory.cellsFrom addr bs).wf = true := by
  rw [Memory.wf_iff_rising]
  have low : ∀ addr (bs : List Byte), ∀ x ∈ (Memory.cellsFrom addr bs).map (fun c => c.1), addr ≤ x := by
    intro addr bs
    induction bs generalizing addr with
    | nil => simp [Memory.cellsFrom]
    | cons b bs ih =>
      intro x hx
      rcases List.mem_cons.1 hx with rfl | hx
      · exact Nat.le_refl _
      · exact Nat.le_of_succ_le (ih _ x hx)
  induction bs generalizing addr with
  | nil => simp [Memory.cellsFrom]
  | cons b bs ih => exact List.pairwise_cons.2 ⟨fun x hx => low _ _ x hx, ih _⟩

@[simp] theorem Memory.wf_ofBytes (bs : List Byte) : (Memory.ofBytes bs).wf = true := Memory.wf_cellsFrom 0 bs

/-! Windows. -/

/-- A window is the bytes of the addresses it spans when all of them are in the buffer and hold a byte. -/
theorem Memory.window_eq (m : Memory) (len addr : Nat) (bs : List Byte)
    (hin : addr + bs.length ≤ len) (hread : ∀ k, k < bs.length → m.read (addr + k) = bs[k]?) :
    m.window len addr bs.length = bs := by
  induction bs generalizing addr with
  | nil => rfl
  | cons b bs ih =>
    simp only [List.length_cons] at hin hread ⊢
    have h0 := hread 0 (by omega)
    simp only [Nat.add_zero, List.getElem?_cons_zero] at h0
    rw [Memory.window, if_pos (by omega), h0]
    simp only
    rw [ih (addr + 1) (by omega)]
    intro k hk
    have := hread (k + 1) (by omega)
    simpa [Nat.add_assoc, Nat.add_comm 1 k] using this

/-- A longer window starts with the shorter one, when that one is complete. -/
theorem Memory.window_append (m : Memory) (len addr n k : Nat) (h : (m.window len addr n).length = n) :
    m.window len addr (n + k) = m.window len addr n ++ m.window len (addr + n) k := by
  induction n generalizing addr with
  | zero => simp [Memory.window]
  | succ n ih =>
    rw [show n + 1 + k = (n + k) + 1 by omega]
    simp only [Memory.window] at h ⊢
    split_ifs at h ⊢ with hlt
    · cases hr : m.read addr with
      | none => simp [hr] at h
      | some b =>
        simp only [hr, List.length_cons, Nat.add_right_cancel_iff] at h
        simp only [List.cons_append, List.cons.injEq, true_and]
        rw [ih (addr + 1) h, show addr + 1 + n = addr + (n + 1) by omega]

/-- A window of readable addresses is complete. -/
theorem Memory.window_length (m : Memory) (len addr n : Nat) (hin : addr + n ≤ len)
    (hread : ∀ a, addr ≤ a → a < addr + n → (m.read a).isSome) : (m.window len addr n).length = n := by
  induction n generalizing addr with
  | zero => rfl
  | succ n ih =>
    obtain ⟨b, hb⟩ := Option.isSome_iff_exists.1 (hread addr (Nat.le_refl _) (by omega))
    rw [Memory.window, if_pos (by omega), hb]
    simp [ih (addr + 1) (by omega) fun a h1 h2 => hread a (by omega) (by omega)]

/-- The window of a buffer that holds exactly some bytes. -/
theorem Memory.window_ofBytes (bs : List Byte) (n : Nat) :
    (Memory.ofBytes bs).window bs.length 0 n = bs.take n := by
  have key : ∀ (addr : Nat), (Memory.ofBytes bs).window bs.length addr n = (bs.drop addr).take n := by
    induction n with
    | zero => simp [Memory.window]
    | succ n ih =>
      intro addr
      rw [Memory.window]
      split_ifs with h
      · rw [Memory.read_ofBytes, List.getElem?_eq_getElem h]
        simp only [ih]
        rw [List.drop_eq_getElem_cons h, List.take_succ_cons]
      · rw [List.drop_eq_nil_of_le (by omega), List.take_nil]
  simpa using key 0

end Sys2Proof.Machine
end

