-- ==== Sys2Proof/Laws/Output.lean ====
section
/-! SUPPORT. Everything the two output operations can do, said once: an append to the sink and the write of one output pixel. -/

namespace Sys2Proof.Machine

/-- The two outcomes of an append (R33, R176). -/
theorem append_cases (s : State) (bs : List Byte) :
    (s.enc.accepts = true ∧ append s bs = .go { s with
      strOut := s.strOut.writeBytes s.enc.outLen bs
      enc := { s.enc with outLen := s.enc.outLen + bs.length, env := s.enc.env.advance } }) ∨
    (s.enc.accepts = false ∧ append s bs = .stop { s with
      enc := { s.enc with env := s.enc.env.advance, control := ⟨.error, .raised .writeFailed⟩ } }) := by
  cases h : s.enc.accepts
  · exact .inr ⟨rfl, by simp only [append, h]; rfl⟩
  · exact .inl ⟨rfl, by simp only [append, h]; rfl⟩

theorem append_accepted {s : State} (h : s.enc.accepts = true) (bs : List Byte) :
    append s bs = .go { s with
      strOut := s.strOut.writeBytes s.enc.outLen bs
      enc := { s.enc with outLen := s.enc.outLen + bs.length, env := s.enc.env.advance } } := by
  simp [append, h]

theorem append_refused {s : State} (h : s.enc.accepts = false) (bs : List Byte) :
    append s bs = .stop { s with
      enc := { s.enc with env := s.enc.env.advance, control := ⟨.error, .raised .writeFailed⟩ } } := by
  simp only [append, h]; rfl

/-- R151, when the environment accepts the write. -/
theorem writePixel_accepted {s : State} (h : s.dec.accepts = true) :
    writePixel s = { s with
      pixOut := s.pixOut.writeBytes (pixelAddress s.dec.desc s.dec.opos) (pixelBytes s.dec.desc.channels s.dec.codec.prev)
      dec := { s.dec with opos := s.dec.opos + 1, env := s.dec.env.advance } } := by
  simp [writePixel, h]

/-- R157, when the environment refuses the write. -/
theorem writePixel_refused {s : State} (h : s.dec.accepts = false) :
    writePixel s = { s with
      dec := { s.dec with env := s.dec.env.advance, control := ⟨.error, .raised .writeFailed⟩ } } := by
  simp only [writePixel, h]; rfl

/-- What the write of an output pixel leaves alone, whatever the answer. -/
theorem writePixel_frame (s : State) :
    (writePixel s).enc = s.enc ∧ (writePixel s).pixIn = s.pixIn ∧ (writePixel s).strOut = s.strOut ∧
    (writePixel s).strIn = s.strIn ∧ (writePixel s).inputs = s.inputs ∧ (writePixel s).dec.codec = s.dec.codec ∧
    (writePixel s).dec.cursor = s.dec.cursor ∧ (writePixel s).dec.lastTagCursor = s.dec.lastTagCursor ∧
    (writePixel s).dec.inLen = s.dec.inLen ∧ (writePixel s).dec.desc = s.dec.desc ∧
    (writePixel s).dec.isQoi = s.dec.isQoi := by
  cases h : s.dec.accepts
  · simp [writePixel_refused h]
  · simp [writePixel_accepted h]

/-- An accepted write leaves the control registers. -/
theorem writePixel_control {s : State} (h : s.dec.accepts = true) : (writePixel s).dec.control = s.dec.control := by
  rw [writePixel_accepted h]

/-- The write of an output pixel leaves the codec registers. -/
@[simp] theorem writePixel_codec (s : State) : (writePixel s).dec.codec = s.dec.codec := by
  simp only [writePixel]; split_ifs <;> rfl

/-- R151: a pixel has three or four bytes, as many as the channel count says. -/
theorem length_pixelBytes {channels : Byte} (p : Pixel) (h : channels = 3 ∨ channels = 4) :
    (pixelBytes channels p).length = channels.toNat := by
  rcases h with rfl | rfl <;> rfl

end Sys2Proof.Machine
end

