-- ==== Sys2Proof/Laws/Encoder.lean ====
section
/-! SUPPORT. Everything the pieces of an encoder step can do, said once: the RUN it emits, the opcode it selects, the move it makes. -/

namespace Sys2Proof

/-- An opcode's bytes are as many as its length (R51). -/
theorem encode_length (i : Instr) : (encode i).length = i.length := by cases i <;> rfl

theorem Instr.length_pos (i : Instr) : 1 ≤ i.length := by cases i <;> simp [Instr.length]

theorem Instr.length_le_five (i : Instr) : i.length ≤ 5 := by cases i <;> simp [Instr.length]

namespace Machine

/-- R113, R116 to R119: the opcode of a pixel that differs from `prev`, hit or miss. -/
def chosen (c : Codec) (cur : Pixel) : Instr :=
  if c.entry (pixelHash cur) = cur then .index (pixelHash cur) else selectOpcode cur c.prev

/-- The codec registers after the opcode of a pixel; on a hit the insertion changes nothing. -/
theorem insert_of_hit_eq {c : Codec} {cur : Pixel} (h : c.entry (pixelHash cur) = cur) : c.insert cur = c := by
  have e := c.insert_of_hit cur h
  cases c
  simp only [Codec.insert] at e ⊢
  rw [e]

/-- The opcode step, when the sink accepts. -/
theorem opcodeStep_accepted {s : State} (cur : Pixel) (h : s.enc.accepts = true) :
    opcodeStep cur s = { s with
      strOut := s.strOut.writeBytes s.enc.outLen (encode (chosen s.enc.codec cur))
      enc := { s.enc with
        codec := { s.enc.codec.insert cur with prev := cur }
        pos := s.enc.pos + 1
        outLen := s.enc.outLen + (encode (chosen s.enc.codec cur)).length
        env := s.enc.env.advance } } := by
  unfold opcodeStep chosen
  split_ifs with hit
  · rw [append_accepted h, insert_of_hit_eq hit]; rfl
  · dsimp only
    rw [append_accepted (by exact h)]; rfl

/-- The opcode step, when the sink refuses. -/
theorem opcodeStep_refused {s : State} (cur : Pixel) (h : s.enc.accepts = false) :
    opcodeStep cur s = { s with
      enc := { s.enc with
        codec := s.enc.codec.insert cur
        env := s.enc.env.advance
        control := ⟨.error, .raised .writeFailed⟩ } } := by
  unfold opcodeStep
  split_ifs with hit
  · rw [append_refused h, insert_of_hit_eq hit]; rfl
  · dsimp only
    rw [append_refused (by exact h)]; rfl

/-- The RUN opcode, when the sink accepts. -/
theorem emitRun_accepted {s : State} (h : s.enc.accepts = true) :
    emitRun s = .go { s with
      strOut := s.strOut.writeBytes s.enc.outLen (encode (.run s.enc.codec.run))
      enc := { s.enc with
        codec := { s.enc.codec with run := 0 }
        outLen := s.enc.outLen + 1
        env := s.enc.env.advance } } := by
  rw [emitRun, append_accepted h]; rfl

/-- The RUN opcode, when the sink refuses. -/
theorem emitRun_refused {s : State} (h : s.enc.accepts = false) :
    emitRun s = .stop { s with
      enc := { s.enc with env := s.enc.env.advance, control := ⟨.error, .raised .writeFailed⟩ } } := by
  rw [emitRun, append_refused h]

/-- A pending run is flushed; with none there is nothing to do. -/
theorem flushRun_of_pos {s : State} (h : 0 < s.enc.codec.run) : flushRun s = emitRun s := by
  rw [flushRun, if_pos h]

theorem flushRun_of_zero {s : State} (h : s.enc.codec.run = 0) : flushRun s = .go s := by
  rw [flushRun, if_neg (by omega)]

/-- A move of ENC with pixels left: the step of the pixel read. -/
theorem encTurn_of_pixel {s : State} {cur : Pixel} (running : s.enc.control.phase = .running)
    (left : s.enc.pos < s.enc.desc.pixelCount) (read : readPixel s = some cur) : encTurn s = .next (encodePixel cur s) := by
  simp [encTurn, running, left, read]

/-- The end of an encoder job, when the sink accepts the epilogue. -/
theorem finishEncode_accepted {s : State} (h : s.enc.accepts = true) :
    finishEncode s = { s with
      strOut := s.strOut.writeBytes s.enc.outLen epilogue
      enc := { s.enc with outLen := s.enc.outLen + 8, env := s.enc.env.advance, control := ⟨.done, .ok⟩ } } := by
  rw [finishEncode, append_accepted h]; rfl

theorem finishEncode_refused {s : State} (h : s.enc.accepts = false) :
    finishEncode s = { s with
      enc := { s.enc with env := s.enc.env.advance, control := ⟨.error, .raised .writeFailed⟩ } } := by
  rw [finishEncode, append_refused h]; rfl

end Machine

end Sys2Proof
end

