-- ==== Sys2Proof/Laws/Exec.lean ====
section
/-! SUPPORT. Everything an opcode can do, said once: its effect on the codec registers, then the write of `prev`. -/

namespace Sys2Proof.Machine

/-- The codec registers an opcode leaves (R144 to R150). -/
def codecAfter (c : Codec) : Instr → Codec
  | .rgb r g b => c.materialize ⟨r, g, b, c.prev.a⟩
  | .rgba r g b a => c.materialize ⟨r, g, b, a⟩
  | .index h => c.materialize (c.entry h)
  | .diff dr dg db => c.materialize (shiftedPixel c.prev dr dg db)
  | .luma dg drg dbg => c.materialize (shiftedPixel c.prev (dg + drg) dg (dg + dbg))
  | .run n => { c with run := n - 1 }

/-- The decoder before the output write of an opcode. -/
def beforeWrite (i : Instr) (s : State) : State := { s with dec := s.dec.executed i (codecAfter s.dec.codec i) }

/-- Every opcode answers a next state: its effect on the codec registers and the cursor, then the output write. -/
theorem exec_eq (i : Instr) (s : State) : exec i s = .next (writePixel (beforeWrite i s)) := by
  cases i <;> rfl

/-- The run counter after an opcode: only RUN writes it (R149). -/
theorem codecAfter_run (c : Codec) (i : Instr) : (codecAfter c i).run = match i with | .run n => n - 1 | _ => c.run := by
  cases i <;> rfl

/-- R101: every opcode keeps the discipline of the index. -/
theorem Codec.Disciplined.codecAfter {c : Codec} (h : c.Disciplined) (i : Instr) : (codecAfter c i).Disciplined := by
  cases i
  case run => exact h
  all_goals exact h.materialize _

end Sys2Proof.Machine
end

