-- ==== Sys2Proof/Laws/Decoder.lean ====
section
/-! SUPPORT. Everything a decoder move can do, said once, the run of the whole core step by step, and what latching a stream lets the
header parser see. -/

namespace Sys2Proof.Machine

/-- A move of DEC with pixels left. -/
theorem decTurn_of_pixel {s : State} (running : s.dec.control.phase = .running) (left : s.dec.opos < s.dec.desc.pixelCount) :
    decTurn s = decodePixel s := by
  simp [decTurn, running, left]

/-- The three kinds of decoder step (R141, R142), all ending in the write of `prev`; only a fetch of bytes the host did not
supply gives no next state. -/
theorem decodePixel_cases (s : State) :
    (0 < s.dec.codec.run ∧ decodePixel s = .next (replicateStep s)) ∨
    (s.dec.codec.run = 0 ∧ s.dec.lastTagCursor ≤ s.dec.cursor ∧ decodePixel s = .next (writePixel s)) ∨
    (s.dec.codec.run = 0 ∧ s.dec.cursor < s.dec.lastTagCursor ∧
      ((∃ i rest, decode (fetchWindow s) = .ok (i, rest) ∧ decodePixel s = .next (writePixel (beforeWrite i s))) ∨
        ∃ e, decode (fetchWindow s) = .error e ∧ decodePixel s = .fault (.unreadableOpcode s.dec.cursor))) := by
  by_cases run : 0 < s.dec.codec.run
  · exact .inl ⟨run, by simp [decodePixel, run]⟩
  · by_cases more : s.dec.cursor < s.dec.lastTagCursor
    · refine .inr (.inr ⟨by omega, more, ?_⟩)
      rcases fetched : decode (fetchWindow s) with e | ⟨i, rest⟩
      · exact .inr ⟨e, rfl, by simp [decodePixel, run, more, fetchStep, fetched]⟩
      · exact .inl ⟨i, rest, rfl, by simp [decodePixel, run, more, fetchStep, fetched, exec_eq]⟩
    · exact .inr (.inl ⟨by omega, by omega, by simp [decodePixel, run, more]⟩)

/-- The header bytes of a stream just latched are its first 14 (R32). -/
theorem headerWindow_latchStream (stream : List Byte) (s : State) :
    headerWindow (latchStream stream s) = stream.take 14 := Memory.window_ofBytes stream 14

/-- What IS_QOI leaves in the descriptor registers (log 8): the parsed descriptor where the parser runs and accepts. -/
theorem latchParsed_latchStream (stream : List Byte) (s : State) :
    latchParsed (latchStream stream s) = setDescriptor
      (match parseHeader (stream.take 14) with
        | .ok d => if isQoiParses stream.length then d else s.dec.desc
        | .error _ => s.dec.desc) (latchStream stream s) := by
  unfold latchParsed
  rw [headerWindow_latchStream]
  cases parseHeader (stream.take 14) with
  | error k => rfl
  | ok d =>
    rw [show (latchStream stream s).dec.inLen = stream.length from rfl]
    cases isQoiParses stream.length <;> rfl

/-- Everything IS_QOI does (R166). -/
theorem runIsQoi_eq (stream : List Byte) (s : State) :
    runIsQoi stream s = { s with
      strIn := Memory.ofBytes stream
      dec := { s.dec with
        inLen := stream.length
        desc := match parseHeader (stream.take 14) with
          | .ok d => if isQoiParses stream.length then d else s.dec.desc
          | .error _ => s.dec.desc
        isQoi := decide (23 ≤ stream.length) && headerParses (stream.take 14)
        control := ⟨.done, .ok⟩ } } := by
  simp only [runIsQoi, latchParsed_latchStream, headerWindow_latchStream]
  rfl

/-- One more step of a run of the core. -/
theorem core_run_succ {s t : State} (n : Nat) (h : step s = .next t) : core.run (n + 1) s = core.run n t := by
  have general : ∀ (M : Host.Core) (s t : M.State), M.step s = .next t → M.run (n + 1) s = M.run n t := by
    intro M s t h
    simp [Host.Core.run, h]
  exact general core s t h

end Sys2Proof.Machine
end

