-- ==== Sys2Proof/Laws/PerInstr.lean ====
section
/-! SUPPORT. Facts about every instruction as syntax, one lemma per constructor. -/

namespace Sys2Proof.Laws.EncodedLength

/-- R51: an opcode is encoded in as many bytes as its length says. -/
def Statement (i : Instr) : Prop := (encode i).length = i.length

theorem rgb (r g b : Byte) : Statement (.rgb r g b) := rfl
theorem rgba (r g b a : Byte) : Statement (.rgba r g b a) := rfl
theorem index (h : Fin 64) : Statement (.index h) := rfl
theorem diff (dr dg db : Int) : Statement (.diff dr dg db) := rfl
theorem luma (dg drg dbg : Int) : Statement (.luma dg drg dbg) := rfl
theorem run (n : Nat) : Statement (.run n) := rfl

end Sys2Proof.Laws.EncodedLength
end

