-- ==== Sys2Proof/Tests/Slice0.lean ====
section
/-! SUPPORT. The model's own tests. Every expected value is written out from the spec: the encodings of 30_encoding.md, the
vectors of 95_test_vectors.md (named in the comments), the error order of 41_header.md and 60_exceptions.md. -/

namespace Sys2Proof.Tests

open Sys2Proof.Machine

/-! Well-formedness: one ill-formed term for each check (R64). -/

theorem test_wf_diff_red_low : (Instr.diff (-3) 0 0).wellFormed = false := by decide
theorem test_wf_diff_red_high : (Instr.diff 2 0 0).wellFormed = false := by decide
theorem test_wf_diff_green_low : (Instr.diff 0 (-3) 0).wellFormed = false := by decide
theorem test_wf_diff_green_high : (Instr.diff 0 2 0).wellFormed = false := by decide
theorem test_wf_diff_blue_low : (Instr.diff 0 0 (-3)).wellFormed = false := by decide
theorem test_wf_diff_blue_high : (Instr.diff 0 0 2).wellFormed = false := by decide
theorem test_wf_luma_green_low : (Instr.luma (-33) 0 0).wellFormed = false := by decide
theorem test_wf_luma_green_high : (Instr.luma 32 0 0).wellFormed = false := by decide
theorem test_wf_luma_red_low : (Instr.luma 0 (-9) 0).wellFormed = false := by decide
theorem test_wf_luma_red_high : (Instr.luma 0 8 0).wellFormed = false := by decide
theorem test_wf_luma_blue_low : (Instr.luma 0 0 (-9)).wellFormed = false := by decide
theorem test_wf_luma_blue_high : (Instr.luma 0 0 8).wellFormed = false := by decide
theorem test_wf_run_zero : (Instr.run 0).wellFormed = false := by decide
theorem test_wf_run_sixty_three : (Instr.run 63).wellFormed = false := by decide
theorem test_wf_run_longest : (Instr.run 62).wellFormed = true := by decide

/-! Decoding: words written out bit by bit from R52 to R57. -/

/-- The instruction a byte sequence starts with. -/
def decoded (bs : List Byte) : Option Instr :=
  match decode bs with
  | .ok (i, _) => some i
  | .error _ => none

theorem test_decode_rgb : decoded [0b11111110, 0x0A, 0x14, 0x1E] = some (.rgb 10 20 30) := by decide
theorem test_decode_rgba : decoded [0b11111111, 0x00, 0x01, 0x02, 0x80] = some (.rgba 0 1 2 128) := by decide
theorem test_decode_index : decoded [0b00001001] = some (.index 9) := by decide
theorem test_decode_index_last : decoded [0b00111111] = some (.index 63) := by decide
/-- P3 and E-DIFF-1: 0x40 is -2,-2,-2. -/
theorem test_decode_diff_least : decoded [0b01000000] = some (.diff (-2) (-2) (-2)) := by decide
/-- E-WRAP, the image of 2.9: 0x47 is -2,-1,+1; it tells the three fields apart. -/
theorem test_decode_diff_fields : decoded [0b01000111] = some (.diff (-2) (-1) 1) := by decide
/-- S4: AA 1F is dg 10, dr-dg -7, db-dg 7. -/
theorem test_decode_luma : decoded [0b10101010, 0b00011111] = some (.luma 10 (-7) 7) := by decide
theorem test_decode_luma_least : decoded [0b10000000, 0b00000000] = some (.luma (-32) (-8) (-8)) := by decide
theorem test_decode_run_one : decoded [0b11000000] = some (.run 1) := by decide
theorem test_decode_run_longest : decoded [0b11111101] = some (.run 62) := by decide
theorem test_decode_truncated_rgb : decode [0xFE, 1, 2] = .error .truncatedRgb := rfl
theorem test_decode_truncated_luma : decode [0x80] = .error .truncatedLuma := rfl
theorem test_encode_diff : encode (.diff 0 1 0) = [0x6E] := by decide
theorem test_encode_luma : encode (.luma 10 (-7) (-3)) = [0xAA, 0x15] := by decide
theorem test_encode_run : encode (.run 62) = [0xFD] := by decide
/-- A table word: bit 0 is the least significant bit of the first byte. -/
theorem test_table_word : decodeTableWord 32 0x1E140AFE = some (.rgb 10 20 30) := by decide

/-! The hash (R73 and 95_test_vectors.md 2.1). -/

theorem test_hash_black : pixelHash ⟨0, 0, 0, 255⟩ = 53 := by decide
theorem test_hash_greatest : pixelHash ⟨255, 255, 255, 255⟩ = 38 := by decide
theorem test_hash_weights : pixelHash ⟨1, 2, 3, 4⟩ = 14 := by decide

/-! One decoder step each (95_test_vectors.md 2.11). The state: a 2 x 1 image of 4 channels, `prev` given, the opcode's
bytes at 14, the input reaching 13 bytes past it. -/

/-- The decoder about to fetch the given bytes with the given `prev`. -/
def atFetch (channels : Byte) (prev : Pixel) (bs : List Byte) : State :=
  let s := placeOpcode State.reset bs
  { s with dec := { s.dec with
      desc := { width := 2, height := 1, channels := channels, colorspace := 0 }
      codec := { s.dec.codec with prev := prev } } }

/-- A view of a next state; none for a fault or a refusal. -/
def seen {α : Type} (o : Host.Outcome State Fault Refusal) (view : State → α) : Option α :=
  match o with
  | .next s => some (view s)
  | .fault _ => none
  | .refused _ => none

/-- `prev`, the cursor's advance and the number of pixels written. -/
def decView (s : State) : Pixel × Nat × Nat := (s.dec.codec.prev, s.dec.cursor - 14, s.dec.opos)

/-- D-RGB-2: alpha is kept. -/
theorem test_step_rgb : seen (step (atFetch 4 ⟨1, 2, 3, 128⟩ [0xFE, 4, 5, 6])) decView = some (⟨4, 5, 6, 128⟩, 4, 1) := by
  decide
/-- D-RGB-1: entry 9 takes the pixel. -/
theorem test_step_rgb_index :
    seen (step (atFetch 4 ⟨0, 0, 0, 255⟩ [0xFE, 10, 20, 30])) (fun s => s.dec.codec.entry 9) = some ⟨10, 20, 30, 255⟩ := by
  decide
/-- D-RGBA-1. -/
theorem test_step_rgba :
    seen (step (atFetch 4 ⟨0, 0, 0, 255⟩ [0xFF, 0, 0, 0, 0x80])) decView = some (⟨0, 0, 0, 128⟩, 5, 1) := by decide
/-- T5: a 3-channel output drops alpha. -/
theorem test_step_rgba_three_channels :
    seen (step (atFetch 3 ⟨0, 0, 0, 255⟩ [0xFF, 1, 2, 3, 0x80])) (fun s => s.pixOut) = some [(0, 1), (1, 2), (2, 3)] := by
  decide
/-- D-IDX-2: an entry never written gives (0,0,0,0). -/
theorem test_step_index : seen (step (atFetch 4 ⟨0, 0, 0, 255⟩ [0x07])) decView = some (⟨0, 0, 0, 0⟩, 1, 1) := by decide
/-- P5, step 1: INDEX of an entry never written overwrites entry 0. -/
theorem test_step_index_writes_entry_zero :
    let s := atFetch 4 ⟨64, 0, 0, 0⟩ [0x05]
    let s := { s with dec := { s.dec with codec := s.dec.codec.insert ⟨64, 0, 0, 0⟩ } }
    seen (step s) (fun s => s.dec.codec.entry 0) = some ⟨0, 0, 0, 0⟩ := by decide
/-- D-DIFF-1. -/
theorem test_step_diff : seen (step (atFetch 4 ⟨0, 0, 0, 255⟩ [0x6E])) decView = some (⟨0, 1, 0, 255⟩, 1, 1) := by decide
/-- D-DIFF-2: the difference wraps. -/
theorem test_step_diff_wraps :
    seen (step (atFetch 4 ⟨0, 0, 0, 255⟩ [0x40])) decView = some (⟨254, 254, 254, 255⟩, 1, 1) := by decide
/-- D-LUMA-1. -/
theorem test_step_luma :
    seen (step (atFetch 4 ⟨50, 50, 50, 255⟩ [0xAA, 0x1F])) decView = some (⟨53, 60, 67, 255⟩, 2, 1) := by decide
/-- D-LUMA-4: the greatest fields, wrapping. -/
theorem test_step_luma_greatest :
    seen (step (atFetch 4 ⟨216, 224, 216, 255⟩ [0xBF, 0xFF])) decView = some (⟨254, 255, 254, 255⟩, 2, 1) := by decide
/-- D-RUN-2: `run <- 61`, `prev` unchanged. -/
theorem test_step_run :
    seen (step (atFetch 4 ⟨7, 8, 9, 255⟩ [0xFD])) (fun s => (s.dec.codec.run, decView s)) = some (61, ⟨7, 8, 9, 255⟩, 1, 1) := by
  decide
/-- T8: RUN writes no index entry. -/
theorem test_step_run_leaves_index :
    seen (step (atFetch 4 ⟨0, 0, 0, 255⟩ [0xC0])) (fun s => s.dec.codec.entry 53) = some ⟨0, 0, 0, 0⟩ := by decide

/-- The first step after reset runs the placed word. -/
theorem test_fetch_word_runs :
    seen (step (State.reset.withFetchWord 8 0xC0)) decView = some (⟨0, 0, 0, 255⟩, 1, 1) := by decide

/-- T4: a pending run is replicated before any fetch. -/
theorem test_step_replicates :
    let s := atFetch 4 ⟨7, 8, 9, 255⟩ [0x40]
    let s := { s with dec := { s.dec with codec := { s.dec.codec with run := 3 } } }
    seen (step s) (fun s => (s.dec.codec.run, decView s)) = some (2, ⟨7, 8, 9, 255⟩, 0, 1) := by decide
/-- T1: with the input exhausted, `prev` is written again. -/
theorem test_step_exhausted :
    let s := atFetch 4 ⟨1, 2, 3, 255⟩ [0x40]
    let s := { s with dec := { s.dec with lastTagCursor := 14 } }
    seen (step s) decView = some (⟨1, 2, 3, 255⟩, 0, 1) := by decide
/-- R157: a refused pixel write ends the job with WriteFailed, the pixel not written. -/
theorem test_step_write_refused :
    let s := atFetch 4 ⟨1, 2, 3, 255⟩ [0x40]
    let s := { s with dec := { s.dec with env := { answers := [false], draws := 0 } } }
    seen (step s) (fun s => (s.dec.control, s.dec.opos, s.pixOut)) = some (⟨.error, .raised .writeFailed⟩, 0, []) := by decide

/-! The header and the decoder's commands (95_test_vectors.md 2.3, 2.4, 2.6). -/

/-- X-9: 20000 x 20001, 4 channels, and 9 more bytes. -/
def tooLarge : List Byte :=
  [0x71, 0x6F, 0x69, 0x66, 0, 0, 0x4E, 0x20, 0, 0, 0x4E, 0x21, 4, 0] ++ List.replicate 9 0

/-- S1: the single black pixel. -/
def blackPixel : List Byte :=
  [0x71, 0x6F, 0x69, 0x66, 0, 0, 0, 1, 0, 0, 0, 1, 4, 0, 0xC0, 0, 0, 0, 0, 0, 0, 0, 1]

/-- The control registers of DEC after one command on the machine at reset, with the given answers. -/
def afterCommand (answers : List Bool) (c : Command) : Option Control :=
  seen (step { State.reset with
    inputs := [.command c]
    dec := { State.reset.dec with env := { answers := answers, draws := 0 } } }) fun s => s.dec.control

theorem test_emit_header :
    emitHeader ⟨0x01020304, 0x0A0B0C0D, 4, 1⟩ = [0x71, 0x6F, 0x69, 0x66, 1, 2, 3, 4, 0x0A, 0x0B, 0x0C, 0x0D, 4, 1] := by
  decide
/-- X-4: the first failing check decides. -/
theorem test_parse_order :
    parseHeader [0x71, 0x6F, 0x69, 0x66, 0, 0, 0, 5, 0, 0, 0, 0, 2, 0] = .error .zeroDimension := rfl
theorem test_decode_too_large :
    afterCommand [true] (.decode tooLarge false) = some ⟨.error, .raised .imageTooLarge⟩ := by decide
theorem test_decode_out_of_memory :
    afterCommand [false] (.decode blackPixel false) = some ⟨.error, .raised .outOfMemory⟩ := by decide
theorem test_decode_starts : afterCommand [true] (.decode blackPixel false) = some ⟨.running, .ok⟩ := by decide
theorem test_parse_descriptor_too_large :
    afterCommand [] (.parseDescriptor tooLarge) = some ⟨.done, .ok⟩ := by decide
theorem test_is_qoi :
    seen (step { State.reset with inputs := [.command (.isQoi blackPixel)] }) (fun s => s.dec.isQoi) = some true := by decide
/-- 2.6: 22 bytes are too short for IS_QOI. -/
theorem test_is_qoi_short :
    seen (step { State.reset with inputs := [.command (.isQoi (blackPixel.take 22))] }) (fun s => s.dec.isQoi) = some false := by
  decide

/-- The model's choice (log 8): the header parser that IS_QOI runs writes the descriptor registers. -/
theorem test_is_qoi_descriptor :
    seen (step { State.reset with inputs := [.command (.isQoi blackPixel)] }) (fun s => s.dec.desc) = some ⟨1, 1, 4, 0⟩ := by
  decide
/-- R183: collecting does not end ERROR. -/
theorem test_collect_error :
    let s := { State.reset with dec := { State.reset.dec with control := ⟨.error, .raised .tooSmall⟩ }, inputs := [.collect .dec] }
    seen (step s) (fun s => s.dec.control) = some ⟨.error, .raised .tooSmall⟩ := by decide

/-! The encoder (95_test_vectors.md 2.5, 2.7 to 2.10). -/

/-- S4, E-LUMA-7, E-RGB-4, E-WRAP-4, 2.10: the bytes of the opcode chosen after an index miss. -/
theorem test_select_luma : encode (selectOpcode ⟨53, 60, 67, 255⟩ ⟨50, 50, 50, 255⟩) = [0xAA, 0x1F] := by decide
theorem test_select_luma_least : encode (selectOpcode ⟨60, 68, 60, 255⟩ ⟨100, 100, 100, 255⟩) = [0x80, 0x00] := by decide
theorem test_select_rgb : encode (selectOpcode ⟨91, 100, 100, 255⟩ ⟨100, 100, 100, 255⟩) = [0xFE, 0x5B, 0x64, 0x64] := by
  decide
theorem test_select_diff_wraps : encode (selectOpcode ⟨0, 255, 127, 255⟩ ⟨255, 0, 128, 255⟩) = [0x75] := by decide
theorem test_select_rgba : encode (selectOpcode ⟨10, 20, 30, 254⟩ ⟨10, 20, 30, 255⟩) = [0xFF, 0x0A, 0x14, 0x1E, 0xFE] := by
  decide

/-- The encoder inside a job of the given image, at pixel `pos`, with a run pending; the sink accepts four appends. -/
def atPixel (pixels : List Byte) (width : BitVec 32) (pos run : Nat) : State :=
  { State.reset with
    pixIn := Memory.ofBytes pixels
    enc := { State.reset.enc with
      desc := { width := width, height := 1, channels := 4, colorspace := 0 }
      pixLen := pixels.length
      codec := { Codec.initial with run := run }
      pos := pos
      control := ⟨.running, .ok⟩
      env := { answers := [true, true, true, true], draws := 0 } } }

/-- What one encoder step appends (to a sink shown from address 0), the run counter and `prev`. -/
def encView (s : State) : List Byte × Nat × Pixel := (s.strOut.map (fun c => c.2), s.enc.codec.run, s.enc.codec.prev)

/-- S1: the run is flushed at the last pixel. -/
theorem test_encode_last_run :
    seen (step (atPixel [0, 0, 0, 255] 1 0 0)) encView = some ([0xC0], 0, ⟨0, 0, 0, 255⟩) := by decide
/-- E-RUN-2: the run is flushed at 62. -/
theorem test_encode_run_sixty_two :
    seen (step (atPixel [0, 0, 0, 255] 100 0 61)) encView = some ([0xFD], 0, ⟨0, 0, 0, 255⟩) := by decide
/-- E-RUN-6: a pending run of 3, then DIFF 1,1,1. -/
theorem test_encode_flush_then_diff :
    seen (step (atPixel [1, 1, 1, 255] 4 0 3)) encView = some ([0xC2, 0x7F], 0, ⟨1, 1, 1, 255⟩) := by decide
/-- E-IDX-2: a first pixel (0,0,0,0) hits the initial entry 0. -/
theorem test_encode_initial_hit :
    seen (step (atPixel [0, 0, 0, 0] 1 0 0)) encView = some ([0x00], 0, ⟨0, 0, 0, 0⟩) := by decide
/-- R121: the epilogue after the last pixel. -/
theorem test_encode_epilogue :
    seen (step (atPixel [0, 0, 0, 255] 1 1 0)) (fun s => (s.strOut.map (fun c => c.2), s.enc.control.phase))
      = some ([0, 0, 0, 0, 0, 0, 0, 1], .done) := by decide

/-- XE-2, XE-4: the order of the encoder's checks. -/
theorem test_encode_check_empty : encodeCheck ⟨0, 0, 4, 0⟩ 0 = some .emptyPixelBuffer := by decide
theorem test_encode_check_large : encodeCheck ⟨20000, 20001, 4, 0⟩ 1 = some .imageTooLarge := by decide
/-- S6: 20000 x 20000 is accepted. -/
theorem test_encode_check_limit : encodeCheck ⟨20000, 20000, 4, 0⟩ 1 = none := by decide

/-! Witnesses: for each statement with hypotheses, a state and operands that meet them together. -/

theorem witness_DecodeOfEncode :
    (Instr.diff (-2) 1 (-2)).wellFormed = true ∧ (Instr.luma (-32) 7 (-8)).wellFormed = true ∧
    (Instr.luma 31 (-8) 7).wellFormed = true ∧ (Instr.run 1).wellFormed = true ∧ (Instr.run 62).wellFormed = true := by
  decide

theorem witness_EncodedBytesAsFormulas :
    (Instr.diff 1 (-2) 1).wellFormed = true ∧ (Instr.luma (-32) (-8) 7).wellFormed = true ∧ (Instr.run 62).wellFormed = true := by
  decide

theorem witness_RunByteIsNoFullTag : (Instr.run 1).wellFormed = true ∧ (Instr.run 62).wellFormed = true := by decide

theorem witness_EncodeOfDecode :
    decode [0x40] = .ok (.diff (-2) (-2) (-2), []) ∧ decode [0xFD, 7] = .ok (.run 62, [7]) := ⟨rfl, rfl⟩

/-- For RgbExecutes, RgbaExecutes, IndexExecutes, DiffExecutes, LumaExecutes and RunExecutes. -/
theorem witness_opcodes_execute :
    (atFetch 4 ⟨1, 2, 3, 128⟩ [0xFE, 4, 5, 6]).dec.accepts = true ∧
    (atFetch 3 ⟨1, 2, 3, 128⟩ [0xFD]).dec.accepts = true ∧ (61#6).toNat ≤ 61 := ⟨rfl, rfl, by decide⟩

/-- A state whose environment refuses DEC's next write. -/
def refusing : State :=
  let s := atFetch 4 ⟨1, 2, 3, 255⟩ [0x40]
  { s with dec := { s.dec with env := { answers := [false], draws := 0 } } }

theorem witness_RefusedPixelWriteFails : refusing.dec.accepts = false := rfl

theorem witness_IndexOfUnwrittenEntryClearsEntryZero :
    State.reset.dec.codec.entry 63 = ⟨0, 0, 0, 0⟩ ∧ State.reset.dec.codec.entry 0 = ⟨0, 0, 0, 0⟩ := by decide

/-- Both ways in which DEC makes the next move. -/
theorem witness_StepRunsDecodedOpcode :
    let s := atFetch 4 ⟨1, 2, 3, 255⟩ [0xFE, 4, 5, 6]
    let q := { s with inputs := [.turn .dec, .turn .enc] }
    (DecMoves s s ∧ s.dec.Fetching ∧ ∃ rest, decode (fetchWindow s) = .ok (.rgb 4 5 6, rest)) ∧
    DecMoves q { q with inputs := [.turn .enc] } :=
  ⟨⟨.inl ⟨rfl, rfl, rfl⟩, ⟨⟨rfl, by decide⟩, rfl, by decide⟩, _, rfl⟩, .inr ⟨_, rfl, rfl⟩⟩

/-- The opcode ends exactly where the input does. -/
theorem witness_FetchReadsStoredOpcode :
    let s := { State.reset with
      strIn := Memory.ofBytes (List.replicate 14 0 ++ [0xAA, 0x1F]), dec := { State.reset.dec with inLen := 16 } }
    (Instr.luma 10 (-7) 7).wellFormed = true ∧ s.dec.cursor + (Instr.luma 10 (-7) 7).length ≤ s.dec.inLen ∧
      ∀ k, k < (Instr.luma 10 (-7) 7).length → s.strIn.read (s.dec.cursor + k) = (encode (.luma 10 (-7) 7))[k]? := by
  decide

/-- A run of one left, and the longest run. -/
theorem witness_RunIsReplicated :
    let s := atFetch 4 ⟨7, 8, 9, 255⟩ [0x40]
    let one := { s with dec := { s.dec with codec := { s.dec.codec with run := 1 } } }
    let most := { s with dec := { s.dec with codec := { s.dec.codec with run := 61 } } }
    (DecMoves one one ∧ one.dec.InLoop ∧ 0 < one.dec.codec.run ∧ one.dec.accepts = true) ∧
    (DecMoves most most ∧ most.dec.InLoop ∧ 0 < most.dec.codec.run ∧ most.dec.accepts = true) :=
  ⟨⟨.inl ⟨rfl, rfl, rfl⟩, ⟨rfl, by decide⟩, by decide, rfl⟩, ⟨.inl ⟨rfl, rfl, rfl⟩, ⟨rfl, by decide⟩, by decide, rfl⟩⟩

theorem witness_ExhaustedInputRepeatsPrev :
    let s := atFetch 4 ⟨1, 2, 3, 255⟩ [0x40]
    let s := { s with dec := { s.dec with lastTagCursor := 14 } }
    DecMoves s s ∧ s.dec.InLoop ∧ s.dec.codec.run = 0 ∧ s.dec.lastTagCursor ≤ s.dec.cursor ∧ s.dec.accepts = true :=
  ⟨.inl ⟨rfl, rfl, rfl⟩, ⟨rfl, by decide⟩, rfl, by decide, rfl⟩

/-- A refused replication with one pixel left of the run, and a refused step of an exhausted input. -/
theorem witness_RefusedRepeatFails :
    let one := { refusing with dec := { refusing.dec with codec := { refusing.dec.codec with run := 1 } } }
    let past := { refusing with dec := { refusing.dec with lastTagCursor := 14 } }
    (DecMoves one one ∧ one.dec.InLoop ∧ 0 < one.dec.codec.run ∧ one.dec.accepts = false) ∧
    (DecMoves past past ∧ past.dec.InLoop ∧ past.dec.codec.run = 0 ∧ past.dec.lastTagCursor ≤ past.dec.cursor ∧
      past.dec.accepts = false) :=
  ⟨⟨.inl ⟨rfl, rfl, rfl⟩, ⟨rfl, by decide⟩, by decide, rfl⟩, ⟨.inl ⟨rfl, rfl, rfl⟩, ⟨rfl, by decide⟩, rfl, by decide, rfl⟩⟩

/-- RUN 2 fills the image of two pixels. -/
theorem witness_RunOpcodeWritesItsPixels :
    let s := atFetch 4 ⟨7, 8, 9, 255⟩ [0xC1]
    let s := { s with dec := { s.dec with env := { answers := [true, true], draws := 0 } } }
    s.inputs = [] ∧ s.dec.Fetching ∧ (∃ rest, decode (fetchWindow s) = .ok (.run 2, rest)) ∧
      s.dec.opos + 2 = s.dec.desc.pixelCount ∧ s.dec.env.answers = List.replicate 2 true ++ [] :=
  ⟨rfl, ⟨⟨rfl, by decide⟩, rfl, by decide⟩, ⟨_, rfl⟩, rfl, rfl⟩

/-- A run is still pending at the end. -/
theorem witness_DecodeJobFinishes :
    let s := atFetch 4 ⟨1, 2, 3, 255⟩ [0x40]
    let s := { s with dec := { s.dec with opos := 2, codec := { s.dec.codec with run := 5 } } }
    DecMoves s s ∧ s.dec.control.phase = .running ∧ s.dec.opos = s.dec.desc.pixelCount :=
  ⟨.inl ⟨rfl, rfl, rfl⟩, rfl, rfl⟩

/-- The last pixel of a buffer of 4 channels and of one of 3. -/
theorem witness_CurrentPixelIsRead :
    let four := atPixel [1, 2, 3, 4, 5, 6, 7, 8] 2 1 0
    let six := atPixel [1, 2, 3, 4, 5, 6] 2 1 0
    let three := { six with enc := { six.enc with desc := ⟨2, 1, 3, 0⟩ } }
    (four.pixIn.read (pixelAddress four.enc.desc four.enc.pos) = some 5 ∧
      four.pixIn.read (pixelAddress four.enc.desc four.enc.pos + 1) = some 6 ∧
      four.pixIn.read (pixelAddress four.enc.desc four.enc.pos + 2) = some 7 ∧ four.enc.desc.channels = 4 ∧
      pixelAddress four.enc.desc four.enc.pos + 4 ≤ four.enc.pixLen ∧
      four.pixIn.read (pixelAddress four.enc.desc four.enc.pos + 3) = some 8) ∧
    (three.pixIn.read (pixelAddress three.enc.desc three.enc.pos) = some 4 ∧
      three.pixIn.read (pixelAddress three.enc.desc three.enc.pos + 1) = some 5 ∧
      three.pixIn.read (pixelAddress three.enc.desc three.enc.pos + 2) = some 6 ∧ three.enc.desc.channels = 3 ∧
      pixelAddress three.enc.desc three.enc.pos + 3 ≤ three.enc.pixLen) := by decide

/-- A run that goes on, one that reaches 62 and one that ends with the image. -/
theorem witness_EqualPixelExtendsRun :
    let on := atPixel [0, 0, 0, 255, 0, 0, 0, 255] 2 0 0
    let full := atPixel [0, 0, 0, 255] 100 0 61
    let last := atPixel [0, 0, 0, 255] 1 0 0
    (EncMoves on on ∧ on.enc.InLoop ∧ readPixel on = some on.enc.codec.prev ∧ on.enc.codec.run + 1 ≠ 62 ∧
      on.enc.pos + 1 ≠ on.enc.desc.pixelCount) ∧
    (EncMoves full full ∧ full.enc.InLoop ∧ readPixel full = some full.enc.codec.prev ∧ full.enc.codec.run + 1 = 62 ∧
      full.enc.codec.run < 62 ∧ full.enc.accepts = true) ∧
    (EncMoves last last ∧ last.enc.InLoop ∧ readPixel last = some last.enc.codec.prev ∧
      last.enc.pos + 1 = last.enc.desc.pixelCount ∧ last.enc.codec.run < 62 ∧ last.enc.accepts = true) :=
  ⟨⟨.inl ⟨rfl, by decide, rfl⟩, ⟨rfl, by decide⟩, rfl, by decide, by decide⟩,
    ⟨.inl ⟨rfl, by decide, rfl⟩, ⟨rfl, by decide⟩, rfl, rfl, by decide, rfl⟩,
    ⟨.inl ⟨rfl, by decide, rfl⟩, ⟨rfl, by decide⟩, rfl, rfl, by decide, rfl⟩⟩

/-- With a pending run of 61, and with none and a refusal after the one append; `q` is ENC's turn among the inputs. -/
theorem witness_DifferentPixelIsEncoded :
    let s := atPixel [1, 1, 1, 255] 100 0 61
    let q0 := atPixel [1, 1, 1, 255] 100 0 0
    let q0 := { q0 with enc := { q0.enc with env := { answers := [true, false], draws := 0 } } }
    let q := { q0 with inputs := [.turn .enc] }
    (EncMoves s s ∧ s.enc.InLoop ∧ readPixel s = some ⟨1, 1, 1, 255⟩ ∧ ⟨1, 1, 1, 255⟩ ≠ s.enc.codec.prev ∧
      s.enc.codec.run < 62 ∧ s.enc.accepts = true ∧ (0 < s.enc.codec.run → s.enc.acceptsNext = true)) ∧
    (EncMoves q q0 ∧ q0.enc.InLoop ∧ readPixel q0 = some ⟨1, 1, 1, 255⟩ ∧ ⟨1, 1, 1, 255⟩ ≠ q0.enc.codec.prev ∧
      q0.enc.codec.run < 62 ∧ q0.enc.accepts = true ∧ (0 < q0.enc.codec.run → q0.enc.acceptsNext = true) ∧
      q0.enc.acceptsNext = false) :=
  ⟨⟨.inl ⟨rfl, by decide, rfl⟩, ⟨rfl, by decide⟩, rfl, by decide, by decide, rfl, fun _ => rfl⟩,
    ⟨.inr ⟨_, rfl, rfl⟩, ⟨rfl, by decide⟩, rfl, by decide, by decide, rfl, by decide, rfl⟩⟩

/-- The cases of `OpcodeBytes`: an index hit, and after a miss the four opcodes, each at a boundary of its range. -/
theorem witness_OpcodeBytes :
    let c := { Codec.initial with prev := ⟨100, 100, 100, 255⟩ }
    c.entry (pixelHash ⟨0, 0, 0, 0⟩) = ⟨0, 0, 0, 0⟩ ∧
    (c.entry (pixelHash ⟨98, 101, 98, 255⟩) ≠ ⟨98, 101, 98, 255⟩ ∧
      ∀ v ∈ [98#8 - 100, 101#8 - 100, 98#8 - 100], v ∈ [254#8, 255#8, 0#8, 1#8]) ∧
    (c.entry (pixelHash ⟨60, 68, 75, 255⟩) ≠ ⟨60, 68, 75, 255⟩ ∧ 60#8 - 100 ∉ [254#8, 255#8, 0#8, 1#8] ∧
      (68#8 - 100).toNat > 223 ∧ ∀ v ∈ [(60#8 - 100) - (68#8 - 100), (75#8 - 100) - (68#8 - 100)], v.toNat > 247 ∨ v.toNat < 8) ∧
    (c.entry (pixelHash ⟨91, 100, 100, 255⟩) ≠ ⟨91, 100, 100, 255⟩ ∧ 91#8 - 100 ∉ [254#8, 255#8, 0#8, 1#8] ∧
      ¬ (((91#8 - 100) - (100#8 - 100)).toNat > 247 ∨ ((91#8 - 100) - (100#8 - 100)).toNat < 8)) ∧
    (c.entry (pixelHash ⟨100, 100, 100, 254⟩) ≠ ⟨100, 100, 100, 254⟩ ∧ 254#8 ≠ c.prev.a) := by decide

/-- The first append refused, and the second after an accepted RUN. -/
theorem witness_RefusedAppendFails :
    let s := atPixel [1, 1, 1, 255] 100 0 61
    let first := { s with enc := { s.enc with env := { answers := [false], draws := 0 } } }
    let second := { s with enc := { s.enc with env := { answers := [true, false], draws := 0 } } }
    (EncMoves first first ∧ first.enc.InLoop ∧ readPixel first = some ⟨1, 1, 1, 255⟩ ∧
      ⟨1, 1, 1, 255⟩ ≠ first.enc.codec.prev ∧ first.enc.codec.run < 62 ∧ first.enc.accepts = false) ∧
    (EncMoves second second ∧ second.enc.InLoop ∧ readPixel second = some ⟨1, 1, 1, 255⟩ ∧
      second.enc.accepts = true ∧ 0 < second.enc.codec.run ∧ second.enc.acceptsNext = false) :=
  ⟨⟨.inl ⟨rfl, by decide, rfl⟩, ⟨rfl, by decide⟩, rfl, by decide, by decide, rfl⟩,
    ⟨.inl ⟨rfl, by decide, rfl⟩, ⟨rfl, by decide⟩, rfl, rfl, by decide, rfl⟩⟩

/-- A RUN refused at 62 and one refused at the last pixel. -/
theorem witness_RefusedRunFails :
    let full := atPixel [0, 0, 0, 255] 100 0 61
    let full := { full with enc := { full.enc with env := { answers := [false], draws := 0 } } }
    let last := atPixel [0, 0, 0, 255] 1 0 0
    let last := { last with enc := { last.enc with env := { answers := [false], draws := 0 } } }
    (EncMoves full full ∧ full.enc.InLoop ∧ readPixel full = some full.enc.codec.prev ∧ full.enc.codec.run + 1 = 62 ∧
      full.enc.accepts = false) ∧
    (EncMoves last last ∧ last.enc.InLoop ∧ readPixel last = some last.enc.codec.prev ∧
      last.enc.pos + 1 = last.enc.desc.pixelCount ∧ last.enc.accepts = false) :=
  ⟨⟨.inl ⟨rfl, by decide, rfl⟩, ⟨rfl, by decide⟩, rfl, rfl, rfl⟩, ⟨.inl ⟨rfl, by decide, rfl⟩, ⟨rfl, by decide⟩, rfl, rfl, rfl⟩⟩

/-- XE-6. -/
theorem witness_RefusedEpilogueFails :
    let s := atPixel [0, 0, 0, 255] 1 1 0
    let s := { s with enc := { s.enc with env := { answers := [false], draws := 2 } } }
    EncMoves s s ∧ s.enc.control.phase = .running ∧ s.enc.pos = s.enc.desc.pixelCount ∧ s.enc.accepts = false :=
  ⟨.inl ⟨rfl, by decide, rfl⟩, rfl, rfl, rfl⟩

theorem witness_EpilogueEndsEncode :
    let s := atPixel [0, 0, 0, 255] 1 1 0
    EncMoves s s ∧ s.enc.control.phase = .running ∧ s.enc.pos = s.enc.desc.pixelCount ∧ s.enc.accepts = true :=
  ⟨.inl ⟨rfl, by decide, rfl⟩, rfl, rfl, rfl⟩

theorem witness_SecondLevelDifference : inLumaGreenRange 224 = true ∧ inLumaGreenRange 31 = true := by decide

theorem witness_HeaderRoundTrip :
    (1 : BitVec 32) ≠ 0 ∧ (0xFFFFFFFF : BitVec 32) ≠ 0 ∧ ((3 : Byte) = 3 ∨ (3 : Byte) = 4) ∧ ((1 : Byte) = 0 ∨ (1 : Byte) = 1) := by
  decide

/-- The least header, one byte too few, and one header for each failing check. -/
theorem witness_HeaderChecksInOrder :
    (blackPixel.take 13).length < 14 ∧
    (List.replicate 14 (0 : Byte)).take 4 ≠ [0x71, 0x6F, 0x69, 0x66] ∧
    (let bs : List Byte := [0x71, 0x6F, 0x69, 0x66, 0, 0, 0, 5, 0, 0, 0, 0, 2, 0]
     14 ≤ bs.length ∧ bs.take 4 = [0x71, 0x6F, 0x69, 0x66] ∧ headerNumber bs 8 = 0) ∧
    (let bs : List Byte := [0x71, 0x6F, 0x69, 0x66, 0, 0, 0, 1, 0, 0, 0, 1, 2, 2]
     headerNumber bs 4 ≠ 0 ∧ headerNumber bs 8 ≠ 0 ∧ bs.getD 12 0 ≠ 3 ∧ bs.getD 12 0 ≠ 4) ∧
    (let bs : List Byte := [0x71, 0x6F, 0x69, 0x66, 0, 0, 0, 1, 0, 0, 0, 1, 3, 2]
     bs.getD 12 0 = 3 ∧ bs.getD 13 0 ≠ 0 ∧ bs.getD 13 0 ≠ 1) ∧
    (headerNumber blackPixel 4 ≠ 0 ∧ headerNumber blackPixel 8 ≠ 0 ∧ blackPixel.getD 12 0 = 4 ∧ blackPixel.getD 13 0 = 0) := by
  decide

/-- 1 x 1 pixels of 4 channels. -/
def tiny : Descriptor := { width := 1, height := 1, channels := 4, colorspace := 0 }

theorem tiny_legal : tiny.Legal := ⟨.inr rfl, .inl rfl, by decide, by decide⟩

/-- A machine at rest with one command to come and the given answers for both agents. -/
def commanded (answers : List Bool) (c : Command) : State :=
  { State.reset with
    inputs := [.command c]
    enc := { State.reset.enc with env := { answers := answers, draws := 0 } }
    dec := { State.reset.dec with env := { answers := answers, draws := 0 } } }

theorem witness_EncodeJobStarts :
    let s := commanded [true] (.encode tiny [0, 0, 0, 255] false)
    Issued s (.encode tiny [0, 0, 0, 255] false) [] ∧ s.enc.control.phase ≠ .running ∧ tiny.Legal ∧
      [0, 0, 0, (255 : Byte)].length = tiny.width.toNat * tiny.height.toNat * tiny.channels.toNat ∧ s.enc.accepts = true :=
  ⟨rfl, by decide, tiny_legal, rfl, rfl⟩

/-- XE-5. -/
theorem witness_RefusedHeaderFails :
    let s := commanded [false] (.encode tiny [0, 0, 0, 255] false)
    Issued s (.encode tiny [0, 0, 0, 255] false) [] ∧ s.enc.control.phase ≠ .running ∧ tiny.Legal ∧
      [0, 0, 0, (255 : Byte)].length = tiny.width.toNat * tiny.height.toNat * tiny.channels.toNat ∧ s.enc.accepts = false :=
  ⟨rfl, by decide, tiny_legal, rfl, rfl⟩

/-- Each error: no bytes, no pixels, one pixel too many. -/
theorem witness_EncodeChecksInOrder :
    Issued (commanded [] (.encode tiny [] false)) (.encode tiny [] false) [] ∧
    Issued (commanded [] (.encode ⟨0, 5, 4, 0⟩ [1] false)) (.encode ⟨0, 5, 4, 0⟩ [1] false) [] ∧
    (0 : BitVec 32).toNat * (5 : BitVec 32).toNat = 0 ∧
    Issued (commanded [] (.encode ⟨400000001, 1, 4, 0⟩ [1] false)) (.encode ⟨400000001, 1, 4, 0⟩ [1] false) [] ∧
    400000000 < (400000001 : BitVec 32).toNat * (1 : BitVec 32).toNat ∧ State.reset.enc.control.phase ≠ .running :=
  ⟨rfl, rfl, by decide, rfl, by decide, by decide⟩

/-- Each breach: the channel count, the colour space, the length; the largest image included. -/
theorem witness_EncodePreconditionsRefused :
    (Issued (commanded [] (.encode ⟨1, 1, 5, 0⟩ [1] false)) (.encode ⟨1, 1, 5, 0⟩ [1] false) [] ∧ (5 : Byte) ≠ 3 ∧ (5 : Byte) ≠ 4) ∧
    (Issued (commanded [] (.encode ⟨1, 1, 3, 2⟩ [1, 2, 3] false)) (.encode ⟨1, 1, 3, 2⟩ [1, 2, 3] false) [] ∧
      (2 : Byte) ≠ 0 ∧ (2 : Byte) ≠ 1) ∧
    (Issued (commanded [] (.encode ⟨20000, 20000, 4, 0⟩ [1] false)) (.encode ⟨20000, 20000, 4, 0⟩ [1] false) [] ∧
      (20000 : BitVec 32).toNat * (20000 : BitVec 32).toNat ≤ 400000000 ∧
      1 ≠ (20000 : BitVec 32).toNat * (20000 : BitVec 32).toNat * (4 : Byte).toNat) :=
  ⟨⟨rfl, by decide⟩, ⟨rfl, by decide⟩, ⟨rfl, by decide⟩⟩

theorem witness_DecodeJobStarts :
    let s := commanded [true] (.decode (emitHeader tiny ++ [0xC0]) false)
    Issued s (.decode (emitHeader tiny ++ [0xC0]) false) [] ∧ s.dec.control.phase ≠ .running ∧ tiny.Legal ∧
      s.dec.accepts = true :=
  ⟨rfl, by decide, tiny_legal, rfl⟩

/-- 400,000,001 x 1 pixels, one more than the limit (R6). -/
def onePixelTooMany : List Byte := [0x71, 0x6F, 0x69, 0x66, 0x17, 0xD7, 0x84, 0x01, 0, 0, 0, 1, 4, 0]

/-- A header error, an image of one pixel too many, a buffer not granted. -/
theorem witness_DecodeChecksInOrder :
    (Issued (commanded [] (.decode [0x71] false)) (.decode [0x71] false) [] ∧ parseHeader [0x71] = .error .tooSmall) ∧
    (Issued (commanded [] (.decode onePixelTooMany false)) (.decode onePixelTooMany false) [] ∧
      parseHeader onePixelTooMany = .ok ⟨400000001, 1, 4, 0⟩ ∧
      400000000 < (400000001 : BitVec 32).toNat * (1 : BitVec 32).toNat) ∧
    (Issued (commanded [false] (.decode blackPixel false)) (.decode blackPixel false) [] ∧
      parseHeader blackPixel = .ok tiny ∧ tiny.width.toNat * tiny.height.toNat ≤ 400000000 ∧
      (commanded [false] (.decode blackPixel false)).dec.accepts = false) :=
  ⟨⟨rfl, rfl⟩, ⟨rfl, rfl, by decide⟩, ⟨rfl, rfl, by decide, rfl⟩⟩

theorem witness_ParseDescriptorResult :
    Issued (commanded [] (.parseDescriptor blackPixel)) (.parseDescriptor blackPixel) [] ∧ parseHeader blackPixel = .ok tiny ∧
    Issued (commanded [] (.parseDescriptor [])) (.parseDescriptor []) [] ∧ parseHeader [] = .error .tooSmall ∧
    State.reset.dec.control.phase ≠ .running :=
  ⟨rfl, rfl, rfl, rfl, by decide⟩

/-- 23 bytes, the least that IS_QOI takes, one byte fewer, and a header that does not parse. -/
theorem witness_IsQoiResult :
    (Issued (commanded [] (.isQoi blackPixel)) (.isQoi blackPixel) [] ∧ blackPixel.length = 23 ∧
      parseHeader blackPixel = .ok tiny) ∧
    (Issued (commanded [] (.isQoi (blackPixel.take 22))) (.isQoi (blackPixel.take 22)) [] ∧
      parseHeader (blackPixel.take 22) = .ok tiny) ∧
    (Issued (commanded [] (.isQoi [])) (.isQoi []) [] ∧ parseHeader [] = .error .tooSmall) ∧
    State.reset.dec.control.phase ≠ .running := ⟨⟨rfl, rfl, rfl⟩, ⟨rfl, rfl⟩, ⟨rfl, rfl⟩, by decide⟩

/-- Both agents in a job: DEC before the one opcode of `blackPixel`, ENC after the one pixel of the same image. -/
def busy (inputs : List Input) : State :=
  { enc := { desc := tiny, pixLen := 4, codec := Codec.initial, pos := 1, outLen := 15, control := ⟨.running, .ok⟩,
             env := { answers := [true], draws := 2 } }
    dec := { inLen := 23, desc := tiny, codec := Codec.initial, cursor := 14, lastTagCursor := 15, opos := 0, isQoi := false,
             control := ⟨.running, .ok⟩, env := { answers := [true], draws := 1 } }
    pixIn := Memory.ofBytes [0, 0, 0, 255]
    strOut := Memory.ofBytes (emitHeader tiny ++ [0xC0])
    strIn := Memory.ofBytes blackPixel
    pixOut := []
    inputs := inputs }

theorem ofBytes_covers (bs : List Byte) : (Memory.ofBytes bs).Covers bs.length := fun a h => by simp [h]

theorem ofBytes_holdsExactly (bs : List Byte) : (Memory.ofBytes bs).HoldsExactly bs.length := fun a => by simp

theorem busy_inv (inputs : List Input) : (busy inputs).Inv where
  pixIn := Memory.wf_ofBytes _
  strOut := Memory.wf_ofBytes _
  strIn := Memory.wf_ofBytes _
  pixOut := rfl
  encIndex := Codec.disciplined_initial
  decIndex := Codec.disciplined_initial
  encRun := (by decide : 0 ≤ 62)
  decRun := (by decide : 0 < 62)
  encControl := ⟨fun _ => rfl, nofun, nofun, nofun⟩
  decControl := ⟨fun _ => rfl, nofun, nofun, nofun⟩
  encJob := fun _ => {
    legal := tiny_legal
    pixLen := rfl
    input := ofBytes_covers [0, 0, 0, 255]
    pos := (by decide : 1 ≤ tiny.pixelCount)
    run := (by decide : 0 < 62)
    runCounted := (by decide : 0 ≤ 1)
    flushed := fun _ => rfl
    alpha := fun _ => rfl
    output := ofBytes_holdsExactly (emitHeader tiny ++ [0xC0])
    header := (by decide : 14 ≤ 15)
    emitted := fun _ => (by decide : 15 ≤ 15)
    size := (by decide : 15 + 0 ≤ 14 + 1 * tiny.pixelCost) }
  encDone := nofun
  decJob := fun _ => {
    legal := tiny_legal
    opos := (by decide : 0 ≤ tiny.pixelCount)
    inLen := (by decide : 14 ≤ 23)
    lastTag := rfl
    cursorLow := (by decide : 14 ≤ 14)
    cursorHigh := (by decide : 14 ≤ max 14 19)
    input := ofBytes_covers blackPixel
    output := fun a => by simp [busy] }

/-- The same with DEC at rest. -/
def encoding : State := { busy [] with dec := State.reset.dec, strIn := [] }

theorem encoding_inv : encoding.Inv :=
  { busy_inv [] with
    strIn := rfl
    decControl := ⟨nofun, nofun, nofun, nofun⟩
    decJob := nofun
    encJob := fun _ => { (busy_inv []).encJob rfl with }
    encDone := nofun }

theorem witness_FetchStaysInsideInput : DecJob (busy []) ∧ (busy []).dec.Fetching :=
  ⟨(busy_inv []).decJob rfl, ⟨rfl, by decide⟩, rfl, by decide⟩

/-- R18's corner (log 19): the shortest input the header parser takes, 14 bytes, and the cursor at 14. -/
theorem witness_DecJob_shortest_input :
    DecJob { busy [] with
      strIn := Memory.ofBytes (blackPixel.take 14)
      dec := { (busy []).dec with inLen := 14, lastTagCursor := 6 } } :=
  { (busy_inv []).decJob rfl with
    inLen := by decide
    lastTag := rfl
    cursorHigh := by decide
    input := ofBytes_covers (blackPixel.take 14) }

theorem witness_EncodedSizeIsBounded :
    (busy [.turn .enc]).Inv ∧ (busy [.turn .enc]).enc.control.phase = .running ∧
    ∃ t, step (busy [.turn .enc]) = .next t ∧ t.enc.control.phase = .done :=
  ⟨busy_inv _, rfl, _, rfl, rfl⟩

/-- A command to an agent in RUNNING, overlapping buffers, an input changed during the job, an early collection. -/
theorem witness_HostBreachesAreRefused :
    (Issued (busy [.command (.isQoi [])]) (.isQoi []) [] ∧ (busy [.command (.isQoi [])]).phaseOf .dec = .running) ∧
    (Issued (commanded [] (.encode tiny [0, 0, 0, 255] true)) (.encode tiny [0, 0, 0, 255] true) [] ∧
      State.reset.enc.control.phase ≠ .running) ∧
    (Issued (commanded [] (.decode blackPixel true)) (.decode blackPixel true) [] ∧ State.reset.dec.control.phase ≠ .running) ∧
    ((busy [.hostWrite .enc 0 1]).inputs = .hostWrite .enc 0 1 :: [] ∧ (busy [.hostWrite .enc 0 1]).phaseOf .enc = .running) ∧
    ((busy [.collect .dec]).inputs = .collect .dec :: [] ∧ (busy [.collect .dec]).phaseOf .dec = .running) :=
  ⟨⟨rfl, rfl⟩, ⟨rfl, by decide⟩, ⟨rfl, by decide⟩, ⟨rfl, rfl⟩, ⟨rfl, rfl⟩⟩

/-- Each act of the host on the machine at rest, and a collection from DONE and from ERROR. -/
theorem witness_HostActsOutsideJobs :
    let done := { State.reset with
      dec := { State.reset.dec with control := ⟨.done, .ok⟩ }, enc := { State.reset.enc with control := ⟨.done, .ok⟩ } }
    let failed := { State.reset with
      dec := { State.reset.dec with control := ⟨.error, .raised .tooSmall⟩ }
      enc := { State.reset.enc with control := ⟨.error, .raised .writeFailed⟩ } }
    ({ State.reset with inputs := [.hostWrite .enc 0 1] }.inputs = .hostWrite .enc 0 1 :: [] ∧
      { State.reset with inputs := [.hostWrite .dec 7 1] }.inputs = .hostWrite .dec 7 1 :: []) ∧
    (State.reset.enc.control.phase ≠ .running ∧ State.reset.dec.control.phase ≠ .running) ∧
    ({ done with inputs := [.collect .enc] }.inputs = .collect .enc :: [] ∧ done.enc.control.phase = .done ∧
      { done with inputs := [.collect .dec] }.inputs = .collect .dec :: [] ∧ done.dec.control.phase = .done) ∧
    ({ failed with inputs := [.collect .enc] }.inputs = .collect .enc :: [] ∧ failed.enc.control.phase = .error ∧
      { failed with inputs := [.collect .dec] }.inputs = .collect .dec :: [] ∧ failed.dec.control.phase = .error) ∧
    (State.reset.enc.control.phase = .idle ∧ State.reset.dec.control.phase = .idle) :=
  ⟨⟨rfl, rfl⟩, by decide, ⟨rfl, rfl, rfl, rfl⟩, ⟨rfl, rfl, rfl, rfl⟩, rfl, rfl⟩

theorem witness_EndedJobIsNotResumed :
    let s := { refusing with dec := { refusing.dec with control := ⟨.error, .raised .writeFailed⟩ }, inputs := [.turn .dec] }
    s.inputs = .turn .dec :: [] ∧ s.phaseOf .dec ≠ .running := ⟨rfl, by decide⟩

/-- A step of each agent from a state with the invariant, and the step of a command. -/
theorem witness_StepKeepsInvariant :
    ((busy [.turn .dec]).Inv ∧ ∃ t, step (busy [.turn .dec]) = .next t) ∧
    ((busy [.turn .enc]).Inv ∧ ∃ t, step (busy [.turn .enc]) = .next t) ∧
    (encoding.Inv ∧ ∃ t, step encoding = .next t) :=
  ⟨⟨busy_inv _, _, rfl⟩, ⟨busy_inv _, _, rfl⟩, ⟨encoding_inv, _, rfl⟩⟩

/-- A state that moves and a state whose next input is refused. -/
theorem witness_StepNeverFaults :
    (busy []).Inv ∧ (busy [.collect .enc]).Inv ∧ step (busy [.collect .enc]) = .refused (.collectedDuringJob .enc) :=
  ⟨busy_inv _, busy_inv _, rfl⟩

theorem witness_IndexDisciplineIsKept :
    (∃ t, step (busy []) = .next t) ∧ (busy []).enc.codec.Disciplined ∧ (busy []).dec.codec.Disciplined :=
  ⟨⟨_, rfl⟩, Codec.disciplined_initial, Codec.disciplined_initial⟩

/-- Two states that agree on one agent's part and differ on the other's. -/
theorem witness_AgentsShareNothing :
    (encoding.enc = (busy []).enc ∧ encoding.pixIn = (busy []).pixIn ∧ encoding.strOut = (busy []).strOut ∧
      ∃ t, encTurn (busy []) = .next t) ∧
    (let s := { busy [] with enc := State.reset.enc, pixIn := [], strOut := [] }
     s.dec = (busy []).dec ∧ s.strIn = (busy []).strIn ∧ s.pixOut = (busy []).pixOut ∧ ∃ t, decTurn (busy []) = .next t) :=
  ⟨⟨rfl, rfl, rfl, _, rfl⟩, ⟨rfl, rfl, rfl, _, rfl⟩⟩

theorem witness_DecodeJobEnds : (busy []).Inv ∧ (busy []).inputs = [] ∧ (busy []).dec.control.phase = .running :=
  ⟨busy_inv [], rfl, rfl⟩

theorem witness_EncodeJobEnds :
    encoding.Inv ∧ encoding.inputs = [] ∧ encoding.dec.control.phase ≠ .running ∧ encoding.enc.control.phase = .running :=
  ⟨encoding_inv, rfl, by decide, rfl⟩

theorem witness_DecoderFollowsEncoder :
    (busy []).dec.codec.prev = (busy []).enc.codec.prev ∧ (busy []).dec.codec.index = (busy []).enc.codec.index ∧
    ⟨1, 1, 1, 255⟩ ≠ (busy []).enc.codec.prev ∧ (busy []).enc.accepts = true ∧ (busy []).dec.accepts = true :=
  ⟨rfl, rfl, by decide, rfl, rfl⟩

/-- The shortest run and the longest. -/
theorem witness_RunFollowsEncoder :
    let counted (n : Nat) : State := { busy [] with enc := { (busy []).enc with codec := { Codec.initial with run := n } } }
    ∀ n ∈ [1, 62], (counted n).dec.codec.prev = (counted n).enc.codec.prev ∧
      (counted n).dec.codec.index = (counted n).enc.codec.index ∧ 1 ≤ (counted n).enc.codec.run ∧
      (counted n).enc.codec.run ≤ 62 ∧ (counted n).enc.accepts = true ∧ (counted n).dec.accepts = true := by
  intro counted n hn
  simp only [List.mem_cons, List.not_mem_nil, or_false] at hn
  rcases hn with rfl | rfl <;> exact ⟨rfl, rfl, by decide, by decide, rfl, rfl⟩

theorem witness_EncodeThenDecodeRestoresImage :
    let s := commanded (List.replicate 4 true) (.encode tiny [1, 2, 3, 4] false)
    let u := commanded (List.replicate 2 true) (.decode blackPixel false)
    (tiny.Legal ∧ [1, 2, 3, (4 : Byte)].length = tiny.pixelCount * tiny.channels.toNat ∧
      s.inputs = [.command (.encode tiny [1, 2, 3, 4] false)] ∧ s.enc.control.phase ≠ .running ∧ s.dec.control.phase ≠ .running ∧
      s.enc.env.answers = List.replicate (2 * tiny.pixelCount + 2) true) ∧
    (u.inputs = [.command (.decode blackPixel false)] ∧ u.dec.control.phase ≠ .running ∧
      u.dec.env.answers = List.replicate (tiny.pixelCount + 1) true) :=
  ⟨⟨tiny_legal, rfl, rfl, by decide, by decide, rfl⟩, ⟨rfl, by decide, rfl⟩⟩

end Sys2Proof.Tests
end

section
/-! The agents share nothing (R9, R41, R186). The idea: put the encoder's part of one state beside the decoder's part of
another. Every encoder operation commutes with that, acting on the first part, and every decoder operation, acting on the
second; what a move leaves alone and what it depends on both follow. -/

namespace Sys2Proof.Machine

/-- The encoder and its memories from `a`, the decoder and its memories from `b`, and the inputs to come. -/
def State.splice (a b : State) (q : List Input) : State :=
  { enc := a.enc, pixIn := a.pixIn, strOut := a.strOut, dec := b.dec, strIn := b.strIn, pixOut := b.pixOut, inputs := q }

/-- The outcome with its next state changed by `f`; a fault or a refusal stays. -/
def mapNext (f : State → State) : Host.Outcome State Fault Refusal → Host.Outcome State Fault Refusal
  | .next s => .next (f s)
  | .fault r => .fault r
  | .refused r => .refused r

@[simp] theorem mapNext_next (f : State → State) (s : State) : mapNext f (.next s) = .next (f s) := rfl

section
variable (a b : State) (q : List Input)

@[simp] theorem State.splice_enc : (a.splice b q).enc = a.enc := rfl
@[simp] theorem State.splice_dec : (a.splice b q).dec = b.dec := rfl
@[simp] theorem State.splice_self : a.splice a a.inputs = a := rfl

/-! The encoder's operations act on the first part. -/

@[simp] theorem readPixel_splice : readPixel (a.splice b q) = readPixel a := rfl
@[simp] theorem setRun_splice (n : Nat) : setRun n (a.splice b q) = (setRun n a).splice b q := rfl
@[simp] theorem nextPos_splice : nextPos (a.splice b q) = (nextPos a).splice b q := rfl

theorem opcodeStep_splice (cur : Pixel) : opcodeStep cur (a.splice b q) = (opcodeStep cur a).splice b q := by
  cases accepted : a.enc.accepts
  · rw [opcodeStep_refused cur accepted, opcodeStep_refused (s := a.splice b q) cur accepted]; rfl
  · rw [opcodeStep_accepted cur accepted, opcodeStep_accepted (s := a.splice b q) cur accepted]; rfl

theorem finishEncode_splice : finishEncode (a.splice b q) = (finishEncode a).splice b q := by
  cases accepted : a.enc.accepts
  · rw [finishEncode_refused accepted, finishEncode_refused (s := a.splice b q) accepted]; rfl
  · rw [finishEncode_accepted accepted, finishEncode_accepted (s := a.splice b q) accepted]; rfl

/-- A RUN opcode and then the rest of the step, where the rest acts on the first part too. -/
theorem emitRun_andThen_splice {f : State → State} (rest : ∀ s, f (s.splice b q) = (f s).splice b q) :
    (emitRun (a.splice b q)).andThen f = ((emitRun a).andThen f).splice b q := by
  cases accepted : a.enc.accepts
  · rw [emitRun_refused accepted, emitRun_refused (s := a.splice b q) accepted]; rfl
  · rw [emitRun_accepted accepted, emitRun_accepted (s := a.splice b q) accepted]
    simp only [Progress.andThen_go, ← rest]; rfl

theorem flushRun_andThen_splice {f : State → State} (rest : ∀ s, f (s.splice b q) = (f s).splice b q) :
    (flushRun (a.splice b q)).andThen f = ((flushRun a).andThen f).splice b q := by
  rcases Nat.eq_zero_or_pos a.enc.codec.run with settled | pending
  · rw [flushRun_of_zero settled, flushRun_of_zero (s := a.splice b q) settled]; exact rest a
  · rw [flushRun_of_pos pending, flushRun_of_pos (s := a.splice b q) pending]; exact emitRun_andThen_splice a b q rest

theorem runStep_splice : runStep (a.splice b q) = (runStep a).splice b q := by
  by_cases flushes : a.enc.codec.run + 1 = Config.maxRun ∨ isLastPixel a.enc.desc a.enc.pos
  · simp only [runStep, setRun_enc_run, State.splice_enc, setRun_splice, flushes, if_true]
    exact emitRun_andThen_splice _ b q fun s => nextPos_splice s b q
  · simp only [runStep, setRun_enc_run, State.splice_enc, setRun_splice, nextPos_splice, flushes, if_false]

theorem encodePixel_splice (cur : Pixel) : encodePixel cur (a.splice b q) = (encodePixel cur a).splice b q := by
  by_cases same : cur = a.enc.codec.prev
  · simp only [encodePixel, State.splice_enc, same, if_true]
    exact runStep_splice a b q
  · simp only [encodePixel, State.splice_enc, same, if_false]
    exact flushRun_andThen_splice a b q fun s => opcodeStep_splice s b q cur

/-- A move of ENC is the same move beside any decoder part, which it leaves. -/
theorem encTurn_splice : encTurn (a.splice b q) = mapNext (·.splice b q) (encTurn a) := by
  simp only [encTurn, State.splice_enc, readPixel_splice, encodePixel_splice, finishEncode_splice]
  split_ifs
  · cases readPixel a <;> rfl
  · rfl
  · rfl

/-! The decoder's operations act on the second part. -/

theorem writePixel_splice : writePixel (a.splice b q) = a.splice (writePixel b) q := by
  cases accepted : b.dec.accepts
  · rw [writePixel_refused accepted, writePixel_refused (s := a.splice b q) accepted]; rfl
  · rw [writePixel_accepted accepted, writePixel_accepted (s := a.splice b q) accepted]; rfl

theorem replicateStep_splice : replicateStep (a.splice b q) = a.splice (replicateStep b) q :=
  writePixel_splice a { b with dec := { b.dec with codec := { b.dec.codec with run := b.dec.codec.run - 1 } } } q

theorem exec_splice (i : Instr) : exec i (a.splice b q) = mapNext (a.splice · q) (exec i b) := by
  simp only [exec_eq, mapNext_next, ← writePixel_splice]; rfl

@[simp] theorem fetchWindow_splice : fetchWindow (a.splice b q) = fetchWindow b := rfl

theorem fetchStep_splice : fetchStep (a.splice b q) = mapNext (a.splice · q) (fetchStep b) := by
  simp only [fetchStep, fetchWindow_splice, exec_splice, State.splice_dec]
  cases decode (fetchWindow b) <;> rfl

theorem decodePixel_splice : decodePixel (a.splice b q) = mapNext (a.splice · q) (decodePixel b) := by
  simp only [decodePixel, State.splice_dec, replicateStep_splice, fetchStep_splice, writePixel_splice]
  split_ifs <;> rfl

/-- A move of DEC is the same move beside any encoder part, which it leaves. -/
theorem decTurn_splice : decTurn (a.splice b q) = mapNext (a.splice · q) (decTurn b) := by
  simp only [decTurn, State.splice_dec, decodePixel_splice]
  split_ifs <;> rfl

end

/-! What a move leaves alone: a state is its own two parts side by side, and only one of them moves. -/

theorem encTurn_decUntouched {s t : State} (moves : encTurn s = .next t) : DecUntouched s t := by
  have again := encTurn_splice s s s.inputs
  rw [State.splice_self, moves, mapNext_next, Host.Outcome.next.injEq] at again
  rw [again]
  exact ⟨rfl, rfl, rfl⟩

theorem decTurn_encUntouched {s t : State} (moves : decTurn s = .next t) : EncUntouched s t := by
  have again := decTurn_splice s s s.inputs
  rw [State.splice_self, moves, mapNext_next, Host.Outcome.next.injEq] at again
  rw [again]
  exact ⟨rfl, rfl, rfl⟩

/-! What a move depends on: a state that agrees with `s` on one part is that part of `s` beside its own other part. -/

theorem State.splice_eq_of_enc {s s' : State} (enc : s'.enc = s.enc) (pixIn : s'.pixIn = s.pixIn)
    (strOut : s'.strOut = s.strOut) : s.splice s' s'.inputs = s' := by
  rw [State.splice, ← enc, ← pixIn, ← strOut]

theorem State.splice_eq_of_dec {s s' : State} (dec : s'.dec = s.dec) (strIn : s'.strIn = s.strIn)
    (pixOut : s'.pixOut = s.pixOut) : s'.splice s s'.inputs = s' := by
  rw [State.splice, ← dec, ← strIn, ← pixOut]

/-- Settles O53: a move acts on its agent's part, whatever stands beside it. -/
theorem agentsShareNothing : Obligations.AgentsShareNothing := by
  unfold Obligations.AgentsShareNothing
  refine ⟨fun _ _ => encTurn_decUntouched, fun _ _ => decTurn_encUntouched, ?_, ?_⟩
  · intro s s' t enc pixIn strOut moves
    have moves' := encTurn_splice s s' s'.inputs
    rw [State.splice_eq_of_enc enc pixIn strOut, moves] at moves'
    exact ⟨t.splice s' s'.inputs, moves', rfl, rfl, rfl⟩
  · intro s s' t dec strIn pixOut moves
    have moves' := decTurn_splice s' s s'.inputs
    rw [State.splice_eq_of_dec dec strIn pixOut, moves] at moves'
    exact ⟨s'.splice t s'.inputs, moves', rfl, rfl, rfl⟩

end Sys2Proof.Machine
end

section
/-! The words of the core (R7, R10, R76): bytes joined into one word are that word's digits in base 256. -/

namespace Sys2Proof.Machine

/-- Joining two bit vectors adds the upper one, shifted up by the lower one's width. -/
theorem toNat_append_eq_add {n m : Nat} (x : BitVec n) (y : BitVec m) : (x ++ y).toNat = x.toNat * 2 ^ m + y.toNat := by
  rw [BitVec.toNat_append, ← Nat.shiftLeft_add_eq_or_of_lt y.isLt, Nat.shiftLeft_eq]

/-- R10, 92 D3: the packed word's value. -/
theorem packPixel_toNat (p : Pixel) :
    (packPixel p).toNat = p.r.toNat * 2 ^ 24 + p.g.toNat * 2 ^ 16 + p.b.toNat * 2 ^ 8 + p.a.toNat := by
  simp only [packPixel, toNat_append_eq_add]
  omega

/-- R72: the four digits of a packed word can be read back. -/
theorem packPixel_injective : Function.Injective packPixel := by
  rintro ⟨pr, pg, pb, pa⟩ ⟨qr, qg, qb, qa⟩ packed
  have values := congrArg BitVec.toNat packed
  simp only [packPixel_toNat] at values
  rw [Pixel.mk.injEq]
  bv_omega

/-- Settles O32: a word is the base-256 number of the components, and such digits are unique. -/
theorem packedIdentity : Obligations.PackedIdentity := by
  unfold Obligations.PackedIdentity
  exact ⟨packPixel_toNat, fun _ _ => packPixel_injective.eq_iff⟩

/-- R80, R81: four header bytes give back the number they were cut from. -/
theorem be32_extract (v : BitVec 32) :
    be32 (v.extractLsb' 24 8) (v.extractLsb' 16 8) (v.extractLsb' 8 8) (v.extractLsb' 0 8) = v := by
  apply BitVec.eq_of_toNat_eq
  simp only [be32, toNat_append_eq_add, BitVec.extractLsb'_toNat, Nat.shiftRight_eq_div_pow]
  omega

end Sys2Proof.Machine
end

section
/-! The start of a job (R136 to R139, R168, R169): what the header parser and the encoder's checks accept, and everything the
two job commands can come to. -/

namespace Sys2Proof.Machine

/-! The header parser (R82). -/

/-- R82: the descriptors whose fields pass the parser's checks. -/
structure Descriptor.FieldsValid (d : Descriptor) : Prop where
  nonempty : 0 < d.pixelCount
  channels : d.channels = 3 ∨ d.channels = 4
  colorspace : d.colorspace = 0 ∨ d.colorspace = 1

/-- R106, R137: a job adds the bound on the pixel count. -/
theorem Descriptor.legal_iff (d : Descriptor) : d.Legal ↔ d.FieldsValid ∧ d.pixelCount ≤ Config.maxPixels :=
  ⟨fun ⟨channels, colorspace, nonempty, bounded⟩ => ⟨⟨nonempty, channels, colorspace⟩, bounded⟩,
    fun ⟨⟨nonempty, channels, colorspace⟩, bounded⟩ => ⟨channels, colorspace, nonempty, bounded⟩⟩

theorem Descriptor.pixelCount_pos_iff (d : Descriptor) : 0 < d.pixelCount ↔ d.width ≠ 0 ∧ d.height ≠ 0 := by
  simp only [Descriptor.pixelCount, Nat.pos_iff_ne_zero, Nat.mul_ne_zero_iff, ← BitVec.toNat_ne_iff_ne]
  rfl

/-- R82, steps 3 to 6: the field checks pass exactly the descriptors that they are about, and answer those unchanged. -/
theorem checkDescriptor_ok_iff (d d' : Descriptor) : checkDescriptor d = .ok d' ↔ d = d' ∧ d.FieldsValid := by
  have fields : d.FieldsValid ↔ ¬ (d.width = 0 ∨ d.height = 0) ∧ ¬ (d.channels ≠ 3 ∧ d.channels ≠ 4) ∧
      ¬ (d.colorspace ≠ 0 ∧ d.colorspace ≠ 1) := by
    have nonempty := d.pixelCount_pos_iff
    exact ⟨fun ⟨h, h', h''⟩ => by tauto, fun h => ⟨by tauto, by tauto, by tauto⟩⟩
  rw [fields, checkDescriptor]
  split_ifs with area channels colorspace
  · exact ⟨nofun, fun ⟨_, h, _⟩ => absurd area h⟩
  · exact ⟨nofun, fun ⟨_, _, h, _⟩ => absurd channels h⟩
  · exact ⟨nofun, fun ⟨_, _, _, h⟩ => absurd colorspace h⟩
  · rw [Except.ok.injEq]
    exact ⟨fun same => ⟨same, area, channels, colorspace⟩, And.left⟩

theorem checkDescriptor_error_ne {d : Descriptor} {k : ErrorKind} (failed : checkDescriptor d = .error k) :
    k ≠ .invalidEncoding := by
  rintro rfl
  unfold checkDescriptor at failed
  split_ifs at failed <;> cases failed

/-- R82: the parser rejects the framing, or the input has a header and the field checks decide. -/
theorem parseHeader_cases (bs : List Byte) :
    parseHeader bs = .error .tooSmall ∨ parseHeader bs = .error .missingSignature ∨
    (14 ≤ bs.length ∧ ∃ d, parseHeader bs = checkDescriptor d) := by
  unfold parseHeader
  split
  · split_ifs
    · exact .inr (.inl rfl)
    · exact .inr (.inr ⟨by simp, _, rfl⟩)
  · exact .inl rfl

theorem parseHeader_ok {bs : List Byte} {d : Descriptor} (parsed : parseHeader bs = .ok d) :
    14 ≤ bs.length ∧ d.FieldsValid := by
  rcases parseHeader_cases bs with short | unsigned | ⟨long, d', checked⟩
  · rw [short] at parsed; cases parsed
  · rw [unsigned] at parsed; cases parsed
  · obtain ⟨rfl, valid⟩ := (checkDescriptor_ok_iff d' d).1 (checked ▸ parsed)
    exact ⟨long, valid⟩

/-- R156: the parser never raises InvalidEncoding. -/
theorem parseHeader_error_ne {bs : List Byte} {k : ErrorKind} (failed : parseHeader bs = .error k) :
    k ≠ .invalidEncoding := by
  rcases parseHeader_cases bs with short | unsigned | ⟨-, d, checked⟩
  · rw [short] at failed; cases failed; decide
  · rw [unsigned] at failed; cases failed; decide
  · exact checkDescriptor_error_ne (checked ▸ failed)

/-- R86: an emitted header is parsed back. -/
theorem parseHeader_emitHeader {d : Descriptor} (valid : d.FieldsValid) : parseHeader (emitHeader d) = .ok d := by
  have back : parseHeader (emitHeader d) = checkDescriptor d := by
    simp only [emitHeader, bytesBe32, List.cons_append, List.nil_append, parseHeader, be32_extract, ne_eq, not_true_eq_false,
      if_false]
  rw [back, checkDescriptor_ok_iff]
  exact ⟨rfl, valid⟩

/-- Everything PARSE_DESCRIPTOR can come to (R167). -/
theorem runParseDescriptor_cases (stream : List Byte) (s : State) :
    (∃ k, parseHeader (stream.take 14) = .error k ∧ runParseDescriptor stream s = raiseDec k (latchStream stream s)) ∨
    ∃ d, parseHeader (stream.take 14) = .ok d ∧
      runParseDescriptor stream s = finishDecode (setDescriptor d (latchStream stream s)) := by
  rcases parsed : parseHeader (stream.take 14) with k | d
  · exact .inl ⟨k, rfl, by simp only [runParseDescriptor, headerWindow_latchStream, parsed]⟩
  · exact .inr ⟨d, rfl, by simp only [runParseDescriptor, headerWindow_latchStream, parsed]⟩

/-! DECODE up to its first step (R169). -/

/-- R139: the decoder at the start of a job. -/
def decodeStarted (d : Descriptor) (stream : List Byte) (s : State) : State :=
  { s with
    strIn := Memory.ofBytes stream
    pixOut := []
    dec := { s.dec with
      inLen := stream.length, desc := d, codec := Codec.initial, cursor := 14, lastTagCursor := stream.length - 8, opos := 0
      control := ⟨.running, .ok⟩, env := s.dec.env.advance } }

theorem startDecode_strIn (stream : List Byte) (s : State) : (startDecode stream s).strIn = Memory.ofBytes stream := by
  unfold startDecode requestBuffer
  dsimp only
  split
  · rfl
  · split_ifs <;> rfl

/-- Everything DECODE can come to: a header error (R136), an image too large (R137), no buffer (R138), or the job's start. -/
theorem startDecode_cases (stream : List Byte) (s : State) :
    (∃ k, parseHeader (stream.take 14) = .error k ∧ DecErrorAtStart s (startDecode stream s) k) ∨
    ∃ d, parseHeader (stream.take 14) = .ok d ∧
      ((Config.maxPixels < d.pixelCount ∧ DecErrorAtStart s (startDecode stream s) .imageTooLarge) ∨
        (d.pixelCount ≤ Config.maxPixels ∧ s.dec.accepts = false ∧
          DecErrorAtStart s (startDecode stream s) .outOfMemory) ∨
        (d.pixelCount ≤ Config.maxPixels ∧ s.dec.accepts = true ∧ startDecode stream s = decodeStarted d stream s)) := by
  have granted : ∀ d, (setDescriptor d (latchStream stream s)).dec.accepts = s.dec.accepts := fun _ => rfl
  rcases parsed : parseHeader (stream.take 14) with k | d
  · refine .inl ⟨k, rfl, ?_⟩
    simp only [startDecode, headerWindow_latchStream, parsed]
    exact ⟨rfl, rfl, rfl, rfl, rfl, rfl, rfl, ⟨rfl, rfl, rfl⟩⟩
  · refine .inr ⟨d, rfl, ?_⟩
    simp only [startDecode, headerWindow_latchStream, parsed]
    split_ifs with large
    · exact .inl ⟨large, rfl, rfl, rfl, rfl, rfl, rfl, rfl, ⟨rfl, rfl, rfl⟩⟩
    · refine .inr ?_
      rw [requestBuffer, granted]
      cases s.dec.accepts
      · exact .inl ⟨by omega, rfl, rfl, rfl, rfl, rfl, rfl, rfl, rfl, ⟨rfl, rfl, rfl⟩⟩
      · exact .inr ⟨by omega, rfl, rfl⟩

theorem startDecode_accepted {stream : List Byte} {s : State} {d : Descriptor} (parsed : parseHeader (stream.take 14) = .ok d)
    (bounded : d.pixelCount ≤ Config.maxPixels) (granted : s.dec.accepts = true) :
    startDecode stream s = decodeStarted d stream s := by
  rcases startDecode_cases stream s with ⟨k, failed, -⟩ | ⟨d', parsed', ⟨large, -⟩ | ⟨-, refused, -⟩ | ⟨-, -, started⟩⟩
  · rw [parsed] at failed; cases failed
  · rw [parsed] at parsed'; cases parsed'; omega
  · rw [granted] at refused; cases refused
  · rw [parsed] at parsed'; cases parsed'; exact started

/-! ENCODE up to its first step (R168). -/

/-- R105, R106: the checks and the preconditions pass exactly the jobs of a legal descriptor and a buffer of its size. -/
theorem encode_allowed_iff (d : Descriptor) (n : Nat) :
    encodeCheck d n = none ∧ encodePreconditions d n = true ↔ d.Legal ∧ n = d.pixelCount * d.channels.toNat := by
  have check : encodeCheck d n = none ↔ n ≠ 0 ∧ 0 < d.pixelCount ∧ d.pixelCount ≤ Config.maxPixels := by
    unfold encodeCheck
    split_ifs <;> simp <;> omega
  have preconditions : encodePreconditions d n = true ↔ (d.channels = 3 ∨ d.channels = 4) ∧
      (d.colorspace = 0 ∨ d.colorspace = 1) ∧ n = d.pixelCount * d.channels.toNat := by
    simp [encodePreconditions, and_assoc]
  rw [check, preconditions]
  constructor
  · rintro ⟨⟨-, nonempty, bounded⟩, channels, colorspace, size⟩
    exact ⟨⟨channels, colorspace, nonempty, bounded⟩, size⟩
  · rintro ⟨⟨channels, colorspace, nonempty, bounded⟩, size⟩
    refine ⟨⟨?_, nonempty, bounded⟩, channels, colorspace, size⟩
    rw [size]
    rcases channels with h | h <;> rw [h] <;> simp <;> omega

theorem encodeCheck_ne {d : Descriptor} {n : Nat} {k : ErrorKind} (failed : encodeCheck d n = some k) :
    k ≠ .invalidEncoding := by
  rintro rfl
  unfold encodeCheck at failed
  split_ifs at failed <;> cases failed

/-- R107, R108: the encoder at the start of a job, the header accepted. -/
def encodeStarted (d : Descriptor) (pixels : List Byte) (s : State) : State :=
  { s with
    pixIn := Memory.ofBytes pixels
    strOut := Memory.writeBytes [] 0 (emitHeader d)
    enc := { s.enc with
      desc := d, pixLen := pixels.length, codec := Codec.initial, pos := 0, outLen := 14
      control := ⟨.running, .ok⟩, env := s.enc.env.advance } }

/-- R108, R176: the encoder after the sink has refused the header. -/
def headerRefused (d : Descriptor) (pixels : List Byte) (s : State) : State :=
  { s with
    pixIn := Memory.ofBytes pixels
    strOut := []
    enc := { s.enc with
      desc := d, pixLen := pixels.length, codec := Codec.initial, pos := 0, outLen := 0
      control := ⟨.error, .raised .writeFailed⟩, env := s.enc.env.advance } }

/-- Everything ENCODE can come to: an error of a check (R106), a refusal (R105), a refused header (R108), or the job's
start. -/
theorem startEncode_cases (d : Descriptor) (pixels : List Byte) (s : State) :
    (∃ k, encodeCheck d pixels.length = some k ∧ startEncode d pixels s = .next (raiseEnc k (latchImage d pixels s))) ∨
    startEncode d pixels s = .refused .encodePrecondition ∨
    ((d.Legal ∧ pixels.length = d.pixelCount * d.channels.toNat) ∧
      ((s.enc.accepts = false ∧ startEncode d pixels s = .next (headerRefused d pixels s)) ∨
        (s.enc.accepts = true ∧ startEncode d pixels s = .next (encodeStarted d pixels s)))) := by
  have sink : (initEncode (latchImage d pixels s)).enc.accepts = s.enc.accepts := rfl
  rcases check : encodeCheck d pixels.length with _ | k
  · cases allowed : encodePreconditions d pixels.length
    · exact .inr (.inl (by simp [startEncode, check, allowed]))
    · refine .inr (.inr ⟨(encode_allowed_iff _ _).1 ⟨check, allowed⟩, ?_⟩)
      simp only [startEncode, check, allowed, if_true, Host.Outcome.next.injEq]
      cases accepted : s.enc.accepts
      · exact .inl ⟨rfl, by rw [append_refused (sink.trans accepted)]; rfl⟩
      · exact .inr ⟨rfl, by rw [append_accepted (sink.trans accepted)]; rfl⟩
  · exact .inl ⟨k, rfl, by simp only [startEncode, check]⟩

theorem startEncode_accepted {d : Descriptor} {pixels : List Byte} {s : State} (legal : d.Legal)
    (size : pixels.length = d.pixelCount * d.channels.toNat) (accepted : s.enc.accepts = true) :
    startEncode d pixels s = .next (encodeStarted d pixels s) := by
  obtain ⟨check, allowed⟩ := (encode_allowed_iff d pixels.length).2 ⟨legal, size⟩
  have sink : (initEncode (latchImage d pixels s)).enc.accepts = true := accepted
  simp only [startEncode, check, allowed, if_true, append_accepted sink]
  rfl

/-! A command the machine takes (R205). -/

/-- A command to an agent outside RUNNING, with buffers apart, starts its job. -/
theorem step_of_issued {s : State} {c : Command} {rest : List Input} (issued : Issued s c rest)
    (idle : s.phaseOf c.agent ≠ .running) (apart : c.overlaps = false) :
    step s = startCommand c { s with inputs := rest } := by
  have idle' : State.phaseOf { s with inputs := rest } c.agent ≠ .running := by
    cases h : c.agent <;> simpa [State.phaseOf, h] using idle
  rw [Issued] at issued
  simp [step, issued, takeInput, issueCommand, idle', apart]

/-- A sink that was empty reads as the bytes appended to it. -/
theorem Memory.read_writeBytes_nil (bs : List Byte) (a : Nat) : (Memory.writeBytes [] 0 bs).read a = bs[a]? := by
  rw [Memory.read_writeBytes]
  split_ifs with inside
  · rfl
  · rw [Memory.read_nil, List.getElem?_eq_none (by omega)]

/-- Settles O37: the start state read off field by field. -/
theorem encodeJobStarts : Obligations.EncodeJobStarts := by
  unfold Obligations.EncodeJobStarts
  intro s d pixels rest issued idle legal size accepted
  refine ⟨encodeStarted d pixels { s with inputs := rest }, ?_, rfl, rfl, rfl, rfl, rfl, rfl, rfl,
    Codec.entry_initial, Memory.read_ofBytes pixels, fun a => ?_, ⟨rfl, rfl, rfl⟩, rfl⟩
  · rw [step_of_issued issued idle rfl]
    exact startEncode_accepted legal size accepted
  · exact Memory.read_writeBytes_nil (emitHeader d) a

/-- Settles O41: the emitted header is parsed back and the start state read off field by field. -/
theorem decodeJobStarts : Obligations.DecodeJobStarts := by
  unfold Obligations.DecodeJobStarts
  intro s d body rest issued idle legal granted
  have header : (emitHeader d ++ body).take 14 = emitHeader d := List.take_left' rfl
  have length : (emitHeader d ++ body).length = 14 + body.length := List.length_append
  have parsed := parseHeader_emitHeader (d.legal_iff.1 legal).1
  refine ⟨decodeStarted d (emitHeader d ++ body) { s with inputs := rest }, ?_, rfl, rfl, length, rfl, ?_, rfl, rfl, rfl,
    Codec.entry_initial, Memory.read_ofBytes _, Memory.read_nil, ⟨rfl, rfl, rfl⟩, rfl⟩
  · rw [step_of_issued issued idle rfl]
    exact congrArg Host.Outcome.next (startDecode_accepted (header ▸ parsed) legal.bounded granted)
  · rw [decodeStarted, length]

end Sys2Proof.Machine
end

section
/-! The host's acts outside a job (R206, R207) and the machine at power-on (R202). -/

namespace Sys2Proof.Machine

theorem Control.collected_of_done {c : Control} (done : c.phase = .done) : c.collected = ⟨.idle, c.status⟩ := by
  rw [Control.collected, if_pos done]

theorem Control.collected_of_ne_done {c : Control} (other : c.phase ≠ .done) : c.collected = c := by
  rw [Control.collected, if_neg other]

section
variable {s : State} {rest : List Input}

theorem step_collect_enc (act : s.inputs = .collect .enc :: rest) (idle : s.enc.control.phase ≠ .running) :
    step s = .next { s with inputs := rest, enc := { s.enc with control := s.enc.control.collected } } := by
  simp [step, act, takeInput, collect, State.phaseOf, idle]

theorem step_collect_dec (act : s.inputs = .collect .dec :: rest) (idle : s.dec.control.phase ≠ .running) :
    step s = .next { s with inputs := rest, dec := { s.dec with control := s.dec.control.collected } } := by
  simp [step, act, takeInput, collect, State.phaseOf, idle]

end

/-- Settles O46: a write is read back by the law of the address space; of the phases outside a job only DONE is collected. -/
theorem hostActsOutsideJobs : Obligations.HostActsOutsideJobs := by
  unfold Obligations.HostActsOutsideJobs
  intro s rest
  refine ⟨?_, ?_, ?_, ?_, ?_, ?_⟩
  · intro addr byte act idle
    refine ⟨{ s with inputs := rest, pixIn := s.pixIn.write addr byte }, ?_, s.pixIn.read_write addr byte, rfl, rfl,
      ⟨rfl, rfl, rfl⟩, rfl⟩
    simp [step, act, takeInput, hostWrite, State.phaseOf, idle]
  · intro addr byte act idle
    refine ⟨{ s with inputs := rest, strIn := s.strIn.write addr byte }, ?_, s.strIn.read_write addr byte, rfl, rfl,
      ⟨rfl, rfl, rfl⟩, rfl⟩
    simp [step, act, takeInput, hostWrite, State.phaseOf, idle]
  · intro act finished
    rw [step_collect_enc act (by simp [finished]), Control.collected_of_done finished]
  · intro act ended
    have other : s.enc.control.phase ≠ .running ∧ s.enc.control.phase ≠ .done := by
      rcases ended with failed | rests <;> simp [*]
    rw [step_collect_enc act other.1, Control.collected_of_ne_done other.2]
  · intro act finished
    rw [step_collect_dec act (by simp [finished]), Control.collected_of_done finished]
  · intro act ended
    have other : s.dec.control.phase ≠ .running ∧ s.dec.control.phase ≠ .done := by
      rcases ended with failed | rests <;> simp [*]
    rw [step_collect_dec act other.1, Control.collected_of_ne_done other.2]

/-- Settles O48: the reset state is a literal, read off field by field. -/
theorem resetIsIdle : Obligations.ResetIsIdle := by
  unfold Obligations.ResetIsIdle
  exact ⟨rfl, rfl, rfl, rfl, rfl, rfl⟩

end Sys2Proof.Machine
end

section
/-! The invariant of Safety.lean (O49, O50). It falls into two halves, one per agent, and every step moves one agent only: its
half is shown to hold again and the other is left as it was. Inside a half, what holds in every phase (`EncBase`, `DecBase`)
is kept apart from what holds during a job: a job that ends with an error keeps the first and needs nothing of the second. -/

namespace Sys2Proof.Machine

/-! The two halves. -/

/-- What the encoder's half says in every phase. -/
structure EncBase (s : State) : Prop where
  pixIn : s.pixIn.wf = true
  strOut : s.strOut.wf = true
  index : s.enc.codec.Disciplined
  run : s.enc.codec.run ≤ Config.maxRun

/-- The encoder's half of the invariant. -/
structure EncInv (s : State) : Prop extends EncBase s where
  control : s.enc.control.Coherent
  job : s.enc.control.phase = .running → EncJob s
  done : s.enc.control.phase = .done → EncDone s

/-- What the decoder's half says in every phase. -/
structure DecBase (s : State) : Prop where
  strIn : s.strIn.wf = true
  pixOut : s.pixOut.wf = true
  index : s.dec.codec.Disciplined
  run : s.dec.codec.run < Config.maxRun

/-- The decoder's half of the invariant. -/
structure DecInv (s : State) : Prop extends DecBase s where
  control : s.dec.control.Coherent
  job : s.dec.control.phase = .running → DecJob s

section
variable {s t : State}

theorem State.inv_iff_halves : s.Inv ↔ EncInv s ∧ DecInv s where
  mp h := ⟨⟨⟨h.pixIn, h.strOut, h.encIndex, h.encRun⟩, h.encControl, h.encJob, h.encDone⟩,
    ⟨⟨h.strIn, h.pixOut, h.decIndex, h.decRun⟩, h.decControl, h.decJob⟩⟩
  mpr := fun ⟨e, d⟩ => ⟨e.pixIn, e.strOut, d.strIn, d.pixOut, e.index, d.index, e.run, d.run, e.control, d.control, e.job,
    e.done, d.job⟩

/-- The encoder's half speaks of the encoder and its memories only. -/
theorem EncInv.of_untouched (h : EncInv s) (same : EncUntouched s t) : EncInv t := by
  obtain ⟨enc, dec, pixIn, strOut, strIn, pixOut, inputs⟩ := t
  obtain ⟨rfl, rfl, rfl⟩ := same
  exact ⟨⟨h.pixIn, h.strOut, h.index, h.run⟩, h.control, fun running => { h.job running with },
    fun finished => { h.done finished with }⟩

/-- The decoder's half speaks of the decoder and its memories only. -/
theorem DecInv.of_untouched (h : DecInv s) (same : DecUntouched s t) : DecInv t := by
  obtain ⟨enc, dec, pixIn, strOut, strIn, pixOut, inputs⟩ := t
  obtain ⟨rfl, rfl, rfl⟩ := same
  exact ⟨⟨h.strIn, h.pixOut, h.index, h.run⟩, h.control, fun running => { h.job running with }⟩

/-- A step of the decoder or a command on it. -/
theorem State.Inv.of_dec (h : s.Inv) (same : EncUntouched s t) (dec : DecInv t) : t.Inv :=
  State.inv_iff_halves.2 ⟨(State.inv_iff_halves.1 h).1.of_untouched same, dec⟩

/-- A step of the encoder or a command on it. -/
theorem State.Inv.of_enc (h : s.Inv) (same : DecUntouched s t) (enc : EncInv t) : t.Inv :=
  State.inv_iff_halves.2 ⟨enc, (State.inv_iff_halves.1 h).2.of_untouched same⟩

/-! The control registers (R22, R24). -/

theorem Control.coherent_powerOn : Control.powerOn.Coherent := ⟨nofun, nofun, nofun, nofun⟩

theorem Control.coherent_running : Control.Coherent ⟨.running, .ok⟩ := ⟨fun _ => rfl, nofun, nofun, nofun⟩

theorem Control.coherent_done : Control.Coherent ⟨.done, .ok⟩ := ⟨nofun, fun _ => rfl, nofun, nofun⟩

theorem Control.coherent_error {k : ErrorKind} (raised : k ≠ .invalidEncoding) : Control.Coherent ⟨.error, .raised k⟩ :=
  ⟨nofun, nofun, nofun, fun h => raised (Status.raised.inj h)⟩

theorem Control.Coherent.eq_running {c : Control} (h : c.Coherent) (running : c.phase = .running) : c = ⟨.running, .ok⟩ := by
  have ok := h.running running
  cases c
  simp_all

/-- A collection keeps the registers coherent and ends no job and starts none. -/
theorem Control.Coherent.collected {c : Control} (h : c.Coherent) : c.collected.Coherent := by
  by_cases finished : c.phase = .done
  · rw [Control.collected_of_done finished]
    exact ⟨nofun, nofun, nofun, h.neverInvalidEncoding⟩
  · rwa [Control.collected_of_ne_done finished]

theorem Control.collected_ne_done (c : Control) : c.collected.phase ≠ .done := by
  rw [Control.collected_phase]
  split_ifs with finished
  · decide
  · exact finished

theorem Control.collected_ne_running {c : Control} (idle : c.phase ≠ .running) : c.collected.phase ≠ .running := by
  rw [Control.collected_phase]
  split_ifs
  · decide
  · exact idle

/-! How a half holds in each phase. -/

/-- A job that has ended with an error. -/
theorem EncBase.failed {k : ErrorKind} (h : EncBase s) (raised : k ≠ .invalidEncoding)
    (control : s.enc.control = ⟨.error, .raised k⟩) : EncInv s where
  toEncBase := h
  control := control ▸ Control.coherent_error raised
  job := by rw [control]; exact nofun
  done := by rw [control]; exact nofun

/-- A job that goes on. -/
theorem EncBase.running (h : EncBase s) (control : s.enc.control = ⟨.running, .ok⟩) (job : EncJob s) : EncInv s where
  toEncBase := h
  control := control ▸ Control.coherent_running
  job := fun _ => job
  done := by rw [control]; exact nofun

/-- A job that has ended without error. -/
theorem EncBase.finished (h : EncBase s) (control : s.enc.control = ⟨.done, .ok⟩) (done : EncDone s) : EncInv s where
  toEncBase := h
  control := control ▸ Control.coherent_done
  job := by rw [control]; exact nofun
  done := fun _ => done

theorem DecBase.failed {k : ErrorKind} (h : DecBase s) (raised : k ≠ .invalidEncoding)
    (control : s.dec.control = ⟨.error, .raised k⟩) : DecInv s where
  toDecBase := h
  control := control ▸ Control.coherent_error raised
  job := by rw [control]; exact nofun

theorem DecBase.running (h : DecBase s) (control : s.dec.control = ⟨.running, .ok⟩) (job : DecJob s) : DecInv s where
  toDecBase := h
  control := control ▸ Control.coherent_running
  job := fun _ => job

theorem DecBase.finished (h : DecBase s) (control : s.dec.control = ⟨.done, .ok⟩) : DecInv s where
  toDecBase := h
  control := control ▸ Control.coherent_done
  job := by rw [control]; exact nofun

end

/-! The extent of a memory (R30, R33, R34). -/

theorem Memory.covers_ofBytes (bs : List Byte) : (Memory.ofBytes bs).Covers bs.length := fun a inside => by simp [inside]

theorem Memory.holdsExactly_nil : Memory.HoldsExactly [] 0 := fun a => by simp

/-- Bytes written at the end of what a memory holds extend it by their number. -/
theorem Memory.HoldsExactly.writeBytes {m : Memory} {n : Nat} (h : m.HoldsExactly n) (bs : List Byte) :
    (m.writeBytes n bs).HoldsExactly (n + bs.length) := by
  intro a
  rw [Memory.read_writeBytes]
  split_ifs with inside
  · rw [Option.isSome_iff_ne_none, Ne, List.getElem?_eq_none_iff]; omega
  · rw [h a]; omega

end Sys2Proof.Machine
end

section
/-! The decoder's half of the invariant is kept (R18, R19, R34). -/

namespace Sys2Proof.Machine

/-- R55, R60: the run of a fetched RUN is at most 62, since the two greatest payloads are the tags of RGB and RGBA. -/
theorem run_field_le {tag : Byte} (notRgb : tag ≠ 0xFE#8) (notRgba : tag ≠ 0xFF#8) (top : tag.extractLsb' 6 2 = 0b11#2) :
    (tag.extractLsb' 0 6).toNat + 1 ≤ Config.maxRun := by
  rw [← BitVec.toNat_ne_iff_ne] at notRgb notRgba
  have high := congrArg BitVec.toNat top
  simp only [BitVec.extractLsb'_toNat, Nat.shiftRight_eq_div_pow, BitVec.toNat_ofNat] at *
  have := tag.isLt
  simp only [Config.maxRun]
  omega

theorem decode_run_le {bs rest : List Byte} {n : Nat} (decoded : decode bs = .ok (.run n, rest)) : n ≤ Config.maxRun := by
  unfold decode at decoded
  split at decoded
  · cases decoded
  · rename_i tag extra
    split_ifs at decoded with rgb rgba index diff luma
    · split at decoded <;> cases decoded
    · split at decoded <;> cases decoded
    · cases decoded
    · cases decoded
    · split at decoded <;> cases decoded
    · cases decoded
      have top : ∀ v : BitVec 2, v ≠ 0b00#2 → v ≠ 0b01#2 → v ≠ 0b10#2 → v = 0b11#2 := by decide
      exact run_field_le rgb rgba (top _ index diff luma)

section
variable {s : State}

/-- The write of an output pixel with pixels left: the extent of PIX_OUT grows with `opos`, or the job has failed. -/
theorem DecInv.writePixel (h : DecInv s) (running : s.dec.control = ⟨.running, .ok⟩)
    (left : s.dec.opos < s.dec.desc.pixelCount) : DecInv (writePixel s) := by
  have job := h.job (by rw [running])
  cases accepted : s.dec.accepts
  · rw [writePixel_refused accepted]
    exact DecBase.failed { h.toDecBase with } (by decide) rfl
  · rw [writePixel_accepted accepted]
    refine DecBase.running { h.toDecBase with pixOut := Memory.wf_writeBytes _ _ _ h.pixOut } running
      { job with opos := left, output := ?_ }
    have grown := job.output.writeBytes (pixelBytes s.dec.desc.channels s.dec.codec.prev)
    rwa [length_pixelBytes _ job.legal.channels, ← Nat.succ_mul] at grown

/-- An opcode fetched before `last_tag_cursor` ends at or before `in_len - 4` (R39) and leaves a run below 62. -/
theorem DecInv.beforeWrite (h : DecInv s) (running : s.dec.control = ⟨.running, .ok⟩)
    (more : s.dec.cursor < s.dec.lastTagCursor) {i : Instr} (longest : ∀ n, i = .run n → n ≤ Config.maxRun) :
    DecInv (beforeWrite i s) := by
  have job := h.job (by rw [running])
  have run : (codecAfter s.dec.codec i).run < Config.maxRun := by
    rw [codecAfter_run]
    cases i
    case run n =>
      have := longest n rfl
      simp only [Config.maxRun] at this ⊢
      omega
    all_goals exact h.run
  have cursor : s.dec.cursor + i.length ≤ s.dec.inLen - 4 := by
    have length := i.length_le_five
    have last := job.lastTag
    simp only [Config.epilogueLen] at last
    omega
  exact DecBase.running { h.toDecBase with index := h.index.codecAfter i, run := run } running
    { job with
      cursorLow := Nat.le_add_right_of_le job.cursorLow
      cursorHigh := cursor.trans (Nat.le_max_right _ _) }

/-- A step of one output pixel. -/
theorem DecInv.decodePixel {t : State} (h : DecInv s) (running : s.dec.control = ⟨.running, .ok⟩)
    (left : s.dec.opos < s.dec.desc.pixelCount) (moves : decodePixel s = .next t) : DecInv t := by
  have job := h.job (by rw [running])
  rcases decodePixel_cases s with ⟨-, replicated⟩ | ⟨-, -, exhausted⟩ |
    ⟨-, more, ⟨i, rest, decoded, executed⟩ | ⟨e, -, faulted⟩⟩
  · obtain rfl := Host.Outcome.next.inj (replicated.symm.trans moves)
    refine DecInv.writePixel (DecBase.running ?_ running { job with }) running left
    exact { h.toDecBase with run := Nat.lt_of_le_of_lt (Nat.sub_le _ _) h.run }
  · obtain rfl := Host.Outcome.next.inj (exhausted.symm.trans moves)
    exact h.writePixel running left
  · obtain rfl := Host.Outcome.next.inj (executed.symm.trans moves)
    exact (h.beforeWrite running more fun n run => decode_run_le (run ▸ decoded)).writePixel running left
  · rw [faulted] at moves; cases moves

theorem DecInv.decTurn {t : State} (h : DecInv s) (moves : decTurn s = .next t) : DecInv t := by
  by_cases running : s.dec.control.phase = .running
  · by_cases left : s.dec.opos < s.dec.desc.pixelCount
    · rw [decTurn_of_pixel running left] at moves
      exact h.decodePixel (h.control.eq_running running) left moves
    · simp only [Machine.decTurn, running, left, if_true, if_false, Host.Outcome.next.injEq] at moves
      subst moves
      exact DecBase.finished { h.toDecBase with } rfl
  · simp only [Machine.decTurn, running, if_false, Host.Outcome.next.injEq] at moves
    exact moves ▸ h

end

/-! The commands on DEC. -/

/-- The state in which a DECODE job starts (R139). -/
theorem decJob_decodeStarted (stream : List Byte) (s : State) {d : Descriptor} (legal : d.Legal) (header : 14 ≤ stream.length) :
    DecJob (decodeStarted d stream s) where
  legal := legal
  opos := Nat.zero_le _
  inLen := header
  lastTag := rfl
  cursorLow := Nat.le_refl 14
  cursorHigh := Nat.le_max_left _ _
  input := Memory.covers_ofBytes stream
  output := (Nat.zero_mul _).symm ▸ Memory.holdsExactly_nil

theorem runParseDescriptor_encUntouched (stream : List Byte) (s : State) :
    EncUntouched s (runParseDescriptor stream s) := by
  rcases runParseDescriptor_cases stream s with ⟨k, -, failed⟩ | ⟨d, -, finished⟩
  · rw [failed]; exact ⟨rfl, rfl, rfl⟩
  · rw [finished]; exact ⟨rfl, rfl, rfl⟩

theorem startDecode_encUntouched (stream : List Byte) (s : State) : EncUntouched s (startDecode stream s) := by
  rcases startDecode_cases stream s with ⟨k, -, failed⟩ | ⟨d, -, ⟨-, failed⟩ | ⟨-, -, failed⟩ | ⟨-, -, started⟩⟩
  · exact failed.encoder
  · exact failed.encoder
  · exact failed.encoder
  · rw [started]; exact ⟨rfl, rfl, rfl⟩

section
variable {s : State} (h : DecBase s) (stream : List Byte)
include h

/-- A stream that has been latched, with what was set beside it (R204). -/
theorem DecBase.latched {t : State} (strIn : t.strIn = Memory.ofBytes stream) (pixOut : t.pixOut = s.pixOut)
    (codec : t.dec.codec = s.dec.codec) : DecBase t where
  strIn := strIn ▸ Memory.wf_ofBytes stream
  pixOut := pixOut ▸ h.pixOut
  index := codec ▸ h.index
  run := codec ▸ h.run

theorem DecBase.runIsQoi : DecInv (runIsQoi stream s) := by
  rw [runIsQoi_eq]
  exact DecBase.finished (h.latched stream rfl rfl rfl) rfl

theorem DecBase.runParseDescriptor : DecInv (runParseDescriptor stream s) := by
  rcases runParseDescriptor_cases stream s with ⟨k, parsed, failed⟩ | ⟨d, -, finished⟩
  · rw [failed]
    exact DecBase.failed (h.latched stream rfl rfl rfl) (parseHeader_error_ne parsed) rfl
  · rw [finished]
    exact DecBase.finished (h.latched stream rfl rfl rfl) rfl

theorem DecBase.errorAtStart {k : ErrorKind} (raised : k ≠ .invalidEncoding)
    (failed : DecErrorAtStart s (startDecode stream s) k) : DecInv (startDecode stream s) :=
  (h.latched stream (startDecode_strIn stream s) failed.pixOut failed.codec).failed raised failed.control

theorem DecBase.startDecode : DecInv (startDecode stream s) := by
  rcases startDecode_cases stream s with ⟨k, parsed, failed⟩ | ⟨d, parsed, ⟨-, failed⟩ | ⟨-, -, failed⟩ | ⟨bounded, -, started⟩⟩
  · exact h.errorAtStart stream (parseHeader_error_ne parsed) failed
  · exact h.errorAtStart stream (by decide) failed
  · exact h.errorAtStart stream (by decide) failed
  · obtain ⟨header, valid⟩ := parseHeader_ok parsed
    rw [List.length_take] at header
    rw [started]
    refine DecBase.running ⟨Memory.wf_ofBytes stream, rfl, Codec.disciplined_initial, (by decide : 0 < 62)⟩ rfl ?_
    exact decJob_decodeStarted stream s (d.legal_iff.2 ⟨valid, bounded⟩) (by omega)

end

end Sys2Proof.Machine
end

section
/-! The encoder's half of the invariant is kept (R14, R16, R17, R44). -/

namespace Sys2Proof.Machine

/-! The lengths of the opcodes a pixel may cost (R44). -/

/-- Only a pixel whose alpha changes costs five bytes. -/
theorem chosen_length_le (c : Codec) (cur : Pixel) : (chosen c cur).length ≤ if cur.a = c.prev.a then 4 else 5 := by
  unfold chosen selectOpcode
  split_ifs <;> simp [Instr.length, *]

/-- R110: with three channels the alpha of the pixel read is that of `prev`. -/
theorem readPixel_alpha {s : State} {cur : Pixel} (read : readPixel s = some cur) (channels : s.enc.desc.channels = 3) :
    cur.a = s.enc.codec.prev.a := by
  unfold readPixel at read
  rw [channels] at read
  unfold pixelOfBytes at read
  split at read
  · rw [if_neg (by decide)] at read; cases read
  · rw [if_pos rfl] at read; cases read; rfl
  · cases read

section
variable {s : State} (job : EncJob s)
include job

/-- No opcode costs more than `channels + 1` bytes. -/
theorem EncJob.chosen_length_le {cur : Pixel} (alpha : s.enc.desc.channels = 3 → cur.a = s.enc.codec.prev.a) :
    (chosen s.enc.codec cur).length ≤ s.enc.desc.pixelCost := by
  have length := Machine.chosen_length_le s.enc.codec cur
  rcases job.legal.channels with three | four
  · rw [if_pos (alpha three)] at length
    simpa [Descriptor.pixelCost, three] using length
  · have : (if cur.a = s.enc.codec.prev.a then 4 else 5) ≤ 5 := by split_ifs <;> decide
    simpa [Descriptor.pixelCost, four] using length.trans this

theorem EncJob.four_le_pixelCost : 4 ≤ s.enc.desc.pixelCost := by
  rcases job.legal.channels with h | h <;> simp [Descriptor.pixelCost, h]

end

/-! The step of one pixel. -/

/-- The bytes a pending run still has to cost. -/
def pendingCost (run : Nat) : Nat := if 0 < run then 1 else 0

theorem pendingCost_le_one (run : Nat) : pendingCost run ≤ 1 := by
  unfold pendingCost
  split_ifs <;> decide

/-- What a step that does not fail does to the encoder's counters and output. -/
structure PixelEncoded (s t : State) : Prop where
  desc : t.enc.desc = s.enc.desc
  pixLen : t.enc.pixLen = s.enc.pixLen
  pixIn : t.pixIn = s.pixIn
  pos : t.enc.pos = s.enc.pos + 1
  run : t.enc.codec.run < Config.maxRun
  counted : t.enc.codec.run ≤ s.enc.codec.run + 1
  flushed : s.enc.pos + 1 = s.enc.desc.pixelCount → t.enc.codec.run = 0
  alpha : s.enc.desc.channels = 3 → t.enc.codec.prev.a = s.enc.codec.prev.a
  output : t.strOut.HoldsExactly t.enc.outLen
  kept : s.enc.outLen ≤ t.enc.outLen
  grown : s.enc.outLen + 1 ≤ t.enc.outLen + t.enc.codec.run
  cost : t.enc.outLen + pendingCost t.enc.codec.run ≤
    s.enc.outLen + pendingCost s.enc.codec.run + s.enc.desc.pixelCost

theorem EncJob.advance {s t : State} (job : EncJob s) (left : s.enc.pos < s.enc.desc.pixelCount) (pixel : PixelEncoded s t) :
    EncJob t where
  legal := pixel.desc ▸ job.legal
  pixLen := by rw [pixel.pixLen, pixel.desc, job.pixLen]
  input := by rw [pixel.pixIn, pixel.pixLen]; exact job.input
  pos := by rw [pixel.pos, pixel.desc]; exact left
  run := pixel.run
  runCounted := by rw [pixel.pos]; exact pixel.counted.trans (Nat.succ_le_succ job.runCounted)
  flushed := by rw [pixel.pos, pixel.desc]; exact pixel.flushed
  alpha := by
    rw [pixel.desc]
    exact fun three => (pixel.alpha three).trans (job.alpha three)
  output := pixel.output
  header := job.header.trans pixel.kept
  emitted := fun _ => (Nat.succ_le_succ job.header).trans pixel.grown
  size := by
    have before := job.size
    have cost := pixel.cost
    rw [pixel.pos, pixel.desc, Nat.succ_mul]
    simp only [pendingCost] at cost
    omega

/-- R111: a pixel equal to `prev` is counted, or at 62 and at the last pixel a RUN is emitted. -/
theorem runStep_cases (s : State) :
    (s.enc.codec.run + 1 ≠ Config.maxRun ∧ s.enc.pos + 1 ≠ s.enc.desc.pixelCount ∧
      runStep s = nextPos (setRun (s.enc.codec.run + 1) s)) ∨
    runStep s = (emitRun (setRun (s.enc.codec.run + 1) s)).andThen nextPos := by
  by_cases flushes : s.enc.codec.run + 1 = Config.maxRun ∨ isLastPixel s.enc.desc s.enc.pos
  · exact .inr (by simp only [runStep, setRun_enc_run, flushes, if_true])
  · refine .inl ?_
    have counts : runStep s = nextPos (setRun (s.enc.codec.run + 1) s) := by
      simp only [runStep, setRun_enc_run, flushes, if_false]
    simp only [isLastPixel, decide_eq_true_eq, not_or] at flushes
    exact ⟨flushes.1, flushes.2, counts⟩

section
variable {s : State} (h : EncInv s) (running : s.enc.control = ⟨.running, .ok⟩)
include h running

theorem EncInv.runStep (left : s.enc.pos < s.enc.desc.pixelCount) : EncInv (runStep s) := by
  have job := h.job (by rw [running])
  have short := job.run
  have cost := job.four_le_pixelCost
  have counted : EncBase (setRun (s.enc.codec.run + 1) s) := { h.toEncBase with run := short }
  rcases runStep_cases s with ⟨below, inside, counts⟩ | flushes
  · rw [counts]
    refine EncBase.running { counted with } running (job.advance left ?_)
    exact {
      desc := rfl, pixLen := rfl, pixIn := rfl, pos := rfl
      run := lt_of_le_of_ne short below
      counted := Nat.le_refl _
      flushed := fun last => absurd last inside
      alpha := fun _ => rfl
      output := job.output
      kept := Nat.le_refl _
      grown := Nat.add_le_add_left (Nat.le_add_left 1 _) _
      cost := by
        have pending := pendingCost_le_one (s.enc.codec.run + 1)
        simp only [nextPos_enc_outLen, nextPos_enc_codec, setRun_enc_outLen, setRun_enc_run]
        omega }
  · rw [flushes]
    cases accepted : s.enc.accepts
    · rw [emitRun_refused (by simpa using accepted)]
      exact EncBase.failed { counted with } (by decide) rfl
    · rw [emitRun_accepted (by simpa using accepted)]
      refine EncBase.running
        { counted with strOut := Memory.wf_writeBytes _ _ _ counted.strOut, run := Nat.zero_le _ } running
        (job.advance left ?_)
      exact {
        desc := rfl, pixLen := rfl, pixIn := rfl, pos := rfl
        run := (by decide : 0 < 62)
        counted := Nat.zero_le _
        flushed := fun _ => rfl
        alpha := fun _ => rfl
        output := job.output.writeBytes (encode (.run _))
        kept := Nat.le_succ _
        grown := Nat.le_refl _
        cost := (by omega : s.enc.outLen + 1 + 0 ≤ s.enc.outLen + pendingCost s.enc.codec.run + s.enc.desc.pixelCost) }

/-- The step of a pixel that differs from `prev`, with no run pending. -/
theorem EncInv.opcodeStep (left : s.enc.pos < s.enc.desc.pixelCount) (settled : s.enc.codec.run = 0) {cur : Pixel}
    (alpha : s.enc.desc.channels = 3 → cur.a = s.enc.codec.prev.a) : EncInv (opcodeStep cur s) := by
  have job := h.job (by rw [running])
  have inserted := h.index.insert cur
  cases accepted : s.enc.accepts
  · rw [opcodeStep_refused cur accepted]
    exact EncBase.failed { h.toEncBase with index := inserted } (by decide) rfl
  · rw [opcodeStep_accepted cur accepted]
    refine EncBase.running { h.toEncBase with index := inserted, strOut := Memory.wf_writeBytes _ _ _ h.strOut } running
      (job.advance left ?_)
    have emits := (chosen s.enc.codec cur).length_pos
    have cost := job.chosen_length_le alpha
    rw [← encode_length] at emits cost
    exact {
      desc := rfl, pixLen := rfl, pixIn := rfl, pos := rfl
      run := job.run
      counted := Nat.le_succ _
      flushed := fun _ => settled
      alpha := alpha
      output := job.output.writeBytes _
      kept := Nat.le_add_right _ _
      grown := Nat.le_add_right_of_le (Nat.add_le_add_left emits _)
      cost := by
        simp only [Codec.insert_run, settled, pendingCost]
        omega }

/-- R112: flushing a pending run keeps the half and leaves none pending, or the job has failed. -/
theorem EncInv.flushRun :
    (∃ t, flushRun s = .go t ∧ EncInv t ∧ t.enc.codec.run = 0 ∧ t.enc.control = s.enc.control ∧ t.enc.pos = s.enc.pos ∧
      t.enc.desc = s.enc.desc ∧ t.enc.codec.prev = s.enc.codec.prev) ∨
    ∃ t, flushRun s = .stop t ∧ EncInv t := by
  have job := h.job (by rw [running])
  rcases Nat.eq_zero_or_pos s.enc.codec.run with settled | pending
  · exact .inl ⟨s, flushRun_of_zero settled, h, settled, rfl, rfl, rfl, rfl⟩
  · rw [flushRun_of_pos pending]
    cases accepted : s.enc.accepts
    · exact .inr ⟨_, emitRun_refused accepted, EncBase.failed { h.toEncBase with } (by decide) rfl⟩
    · refine .inl ⟨_, emitRun_accepted accepted, ?_, rfl, rfl, rfl, rfl, rfl⟩
      refine EncBase.running
        { h.toEncBase with strOut := Memory.wf_writeBytes _ _ _ h.strOut, run := Nat.zero_le _ } running
        { job with
          run := (by decide : 0 < 62)
          runCounted := Nat.zero_le _
          flushed := fun _ => rfl
          output := job.output.writeBytes (encode (.run _))
          header := Nat.le_succ_of_le job.header
          emitted := fun _ => Nat.succ_le_succ job.header
          size := ?_ }
      have size := job.size
      rwa [if_pos pending] at size

theorem EncInv.encodePixel (left : s.enc.pos < s.enc.desc.pixelCount) {cur : Pixel} (read : readPixel s = some cur) :
    EncInv (encodePixel cur s) := by
  unfold Machine.encodePixel
  split_ifs with same
  · exact h.runStep running left
  · rcases h.flushRun running with ⟨t, flushed, inv, settled, control, pos, desc, prev⟩ | ⟨t, refused, inv⟩
    · rw [flushed]
      refine inv.opcodeStep (control.trans running) (pos ▸ desc ▸ left) settled fun three => ?_
      rw [prev]
      exact readPixel_alpha read (desc ▸ three)
    · rw [refused]
      exact inv

/-- R121: the epilogue ends a job of at least 23 bytes (R166) and at most R44's bound, or the job has failed. -/
theorem EncInv.finishEncode (last : s.enc.desc.pixelCount ≤ s.enc.pos) : EncInv (finishEncode s) := by
  have job := h.job (by rw [running])
  cases accepted : s.enc.accepts
  · rw [finishEncode_refused accepted]
    exact EncBase.failed { h.toEncBase with } (by decide) rfl
  · rw [finishEncode_accepted accepted]
    refine EncBase.finished { h.toEncBase with strOut := Memory.wf_writeBytes _ _ _ h.strOut } rfl ?_
    have all : s.enc.pos = s.enc.desc.pixelCount := Nat.le_antisymm job.pos last
    have settled := job.flushed all
    have emitted := job.emitted (all ▸ job.legal.nonempty)
    have size := job.size
    rw [all] at size
    simp only [settled, Config.headerLen] at emitted size
    exact {
      output := job.output.writeBytes epilogue
      least := by simp only [Config.minQoiLen]; omega
      most := by dsimp only; omega }

end

theorem EncInv.encTurn {s t : State} (h : EncInv s) (moves : encTurn s = .next t) : EncInv t := by
  unfold Machine.encTurn at moves
  split_ifs at moves with running left
  · split at moves
    · rename_i cur read
      obtain rfl := Host.Outcome.next.inj moves
      exact h.encodePixel (h.control.eq_running running) left read
    · cases moves
  · obtain rfl := Host.Outcome.next.inj moves
    exact h.finishEncode (h.control.eq_running running) (Nat.le_of_not_lt left)
  · obtain rfl := Host.Outcome.next.inj moves
    exact h

/-! The start of a job. -/

/-- The state in which an ENCODE job starts (R107, R108). -/
theorem encJob_encodeStarted {d : Descriptor} {pixels : List Byte} (s : State) (legal : d.Legal)
    (size : pixels.length = d.pixelCount * d.channels.toNat) : EncJob (encodeStarted d pixels s) where
  legal := legal
  pixLen := size
  input := Memory.covers_ofBytes pixels
  pos := Nat.zero_le _
  run := (by decide : 0 < 62)
  runCounted := Nat.le_refl 0
  flushed := fun _ => rfl
  alpha := fun _ => rfl
  output := Memory.holdsExactly_nil.writeBytes (emitHeader d)
  header := Nat.le_refl 14
  emitted := nofun
  size := Nat.le_add_right 14 _

theorem EncBase.startEncode {s t : State} (h : EncBase s) {d : Descriptor} {pixels : List Byte}
    (moves : startEncode d pixels s = .next t) : EncInv t := by
  have latched : (Memory.ofBytes pixels).wf = true := Memory.wf_ofBytes pixels
  rcases startEncode_cases d pixels s with ⟨k, check, failed⟩ | refused |
    ⟨⟨legal, size⟩, ⟨-, failed⟩ | ⟨-, started⟩⟩
  · obtain rfl := Host.Outcome.next.inj (failed.symm.trans moves)
    exact EncBase.failed { h with pixIn := latched, strOut := rfl } (encodeCheck_ne check) rfl
  · rw [refused] at moves; cases moves
  · obtain rfl := Host.Outcome.next.inj (failed.symm.trans moves)
    exact EncBase.failed ⟨latched, rfl, Codec.disciplined_initial, Nat.zero_le _⟩ (by decide) rfl
  · obtain rfl := Host.Outcome.next.inj (started.symm.trans moves)
    exact EncBase.running ⟨latched, Memory.wf_writeBytes _ _ _ rfl, Codec.disciplined_initial, Nat.zero_le _⟩ rfl
      (encJob_encodeStarted s legal size)

theorem startEncode_decUntouched {s t : State} {d : Descriptor} {pixels : List Byte}
    (moves : startEncode d pixels s = .next t) : DecUntouched s t := by
  rcases startEncode_cases d pixels s with ⟨k, -, failed⟩ | refused | ⟨-, ⟨-, failed⟩ | ⟨-, started⟩⟩
  · obtain rfl := Host.Outcome.next.inj (failed.symm.trans moves)
    exact ⟨rfl, rfl, rfl⟩
  · rw [refused] at moves; cases moves
  · obtain rfl := Host.Outcome.next.inj (failed.symm.trans moves)
    exact ⟨rfl, rfl, rfl⟩
  · obtain rfl := Host.Outcome.next.inj (started.symm.trans moves)
    exact ⟨rfl, rfl, rfl⟩

end Sys2Proof.Machine
end

section
/-! Every step keeps the whole invariant: what the next input does to one half, the other half untouched. -/

namespace Sys2Proof.Machine

section
variable {s t : State} (h : s.Inv)
include h

theorem State.Inv.decHalf : DecInv s := (State.inv_iff_halves.1 h).2

theorem State.Inv.encHalf : EncInv s := (State.inv_iff_halves.1 h).1

/-- An agent's move. -/
theorem State.Inv.agentTurn {a : Agent} (moves : agentTurn a s = .next t) : t.Inv := by
  cases a with
  | enc => exact h.of_enc (encTurn_decUntouched moves) (h.encHalf.encTurn moves)
  | dec => exact h.of_dec (decTurn_encUntouched moves) (h.decHalf.decTurn moves)

theorem State.Inv.defaultTurn (moves : defaultTurn s = .next t) : t.Inv := by
  unfold Machine.defaultTurn at moves
  split_ifs at moves
  · exact h.agentTurn (a := .dec) moves
  · exact h.agentTurn (a := .enc) moves

theorem State.Inv.startCommand {c : Command} (moves : startCommand c s = .next t) : t.Inv := by
  cases c with
  | isQoi stream =>
    obtain rfl := Host.Outcome.next.inj moves
    exact h.of_dec (runIsQoi_eq stream s ▸ ⟨rfl, rfl, rfl⟩) (h.decHalf.toDecBase.runIsQoi stream)
  | parseDescriptor stream =>
    obtain rfl := Host.Outcome.next.inj moves
    exact h.of_dec (runParseDescriptor_encUntouched stream s) (h.decHalf.toDecBase.runParseDescriptor stream)
  | encode d pixels overlap =>
    exact h.of_enc (startEncode_decUntouched moves) (h.encHalf.toEncBase.startEncode moves)
  | decode stream overlap =>
    obtain rfl := Host.Outcome.next.inj moves
    exact h.of_dec (startDecode_encUntouched stream s) (h.decHalf.toDecBase.startDecode stream)

theorem State.Inv.issueCommand {c : Command} (moves : issueCommand c s = .next t) : t.Inv := by
  unfold Machine.issueCommand at moves
  split_ifs at moves
  exact h.startCommand moves

/-- R206: outside its job an agent's half says of its input buffer no more than the canonical form. -/
theorem State.Inv.hostWrite {a : Agent} {addr : Nat} {byte : Byte} (moves : hostWrite a addr byte s = .next t) : t.Inv := by
  unfold Machine.hostWrite at moves
  split_ifs at moves with idle
  cases a with
  | enc =>
    obtain rfl := Host.Outcome.next.inj moves
    exact { h with
      pixIn := Memory.wf_write _ _ _ h.pixIn
      encJob := fun running => absurd running idle
      encDone := fun finished => { h.encDone finished with }
      decJob := fun running => { h.decJob running with } }
  | dec =>
    obtain rfl := Host.Outcome.next.inj moves
    exact { h with
      strIn := Memory.wf_write _ _ _ h.strIn
      encJob := fun running => { h.encJob running with }
      encDone := fun finished => { h.encDone finished with }
      decJob := fun running => absurd running idle }

theorem State.Inv.collect {a : Agent} (moves : collect a s = .next t) : t.Inv := by
  unfold Machine.collect at moves
  split_ifs at moves with idle
  cases a with
  | enc =>
    obtain rfl := Host.Outcome.next.inj moves
    exact { h with
      encControl := h.encControl.collected
      encJob := fun running => absurd running (Control.collected_ne_running idle)
      encDone := fun finished => absurd finished (Control.collected_ne_done _)
      decJob := fun running => { h.decJob running with } }
  | dec =>
    obtain rfl := Host.Outcome.next.inj moves
    exact { h with
      decControl := h.decControl.collected
      encJob := fun running => { h.encJob running with }
      encDone := fun finished => { h.encDone finished with }
      decJob := fun running => absurd running (Control.collected_ne_running idle) }

theorem State.Inv.takeInput {x : Input} (moves : takeInput x s = .next t) : t.Inv := by
  cases x with
  | command c => exact h.issueCommand moves
  | hostWrite a addr byte => exact h.hostWrite moves
  | collect a => exact h.collect moves
  | turn a => exact h.agentTurn moves

/-- The invariant says nothing of the inputs to come. -/
theorem State.Inv.withInputs (q : List Input) : State.Inv { s with inputs := q } :=
  h.of_dec ⟨rfl, rfl, rfl⟩ (h.decHalf.of_untouched ⟨rfl, rfl, rfl⟩)

theorem State.Inv.step (moves : step s = .next t) : t.Inv := by
  unfold Machine.step at moves
  split at moves
  · exact h.defaultTurn moves
  · exact (h.withInputs _).takeInput moves

end

/-- Settles O50: each input moves one half of the invariant, and that half is kept. -/
theorem stepKeepsInvariant : Obligations.StepKeepsInvariant := by
  unfold Obligations.StepKeepsInvariant
  exact fun _ _ h moves => h.step moves

/-- Settles O49: no job runs after reset, the memories are empty and the index tables initial. -/
theorem invariantHoldsAtReset : Obligations.InvariantHoldsAtReset := by
  unfold Obligations.InvariantHoldsAtReset
  exact {
    pixIn := rfl, strOut := rfl, strIn := rfl, pixOut := rfl
    encIndex := Codec.disciplined_initial
    decIndex := Codec.disciplined_initial
    encRun := (by decide : 0 ≤ 62)
    decRun := (by decide : 0 < 62)
    encControl := Control.coherent_powerOn
    decControl := Control.coherent_powerOn
    encJob := nofun
    encDone := nofun
    decJob := nofun }

end Sys2Proof.Machine
end

section
/-! The fetch (R35, R39, R142). First the decoder's answer to each range of the first byte (R59), from it that the bytes of a
well-formed opcode decode to it and that five bytes always decode; then what the fetch window holds. -/

namespace Sys2Proof

/-! Decoding, one equation per range of the first byte (R59, R61). -/

section
variable {tag : Byte} (rest : List Byte)

/-- R60: a two-bit tag other than 11 is no full-byte tag. -/
theorem ne_full_tags (top : tag.extractLsb' 6 2 ≠ 0b11#2) : tag ≠ 0xFE#8 ∧ tag ≠ 0xFF#8 := by
  constructor <;> rintro rfl <;> exact top (by decide)

theorem decode_of_index_tag (top : tag.extractLsb' 6 2 = 0b00#2) :
    decode (tag :: rest) = .ok (.index (Fin.ofNat 64 tag.toNat), rest) := by
  obtain ⟨notRgb, notRgba⟩ := ne_full_tags (tag := tag) (by rw [top]; decide)
  simp only [decode, notRgb, notRgba, top, if_true, if_false]

theorem decode_of_diff_tag (top : tag.extractLsb' 6 2 = 0b01#2) : decode (tag :: rest) = .ok (decodeDiff tag, rest) := by
  obtain ⟨notRgb, notRgba⟩ := ne_full_tags (tag := tag) (by rw [top]; decide)
  have notIndex : ¬ (0b01#2 : BitVec 2) = 0b00#2 := by decide
  simp only [decode, notRgb, notRgba, top, notIndex, if_true, if_false]

theorem decode_of_luma_tag (top : tag.extractLsb' 6 2 = 0b10#2) (b2 : Byte) :
    decode (tag :: b2 :: rest) = .ok (decodeLuma tag b2, rest) := by
  obtain ⟨notRgb, notRgba⟩ := ne_full_tags (tag := tag) (by rw [top]; decide)
  have others : ¬ (0b10#2 : BitVec 2) = 0b00#2 ∧ ¬ (0b10#2 : BitVec 2) = 0b01#2 := by decide
  simp only [decode, notRgb, notRgba, top, others.1, others.2, if_true, if_false]

theorem decode_of_run_tag (top : tag.extractLsb' 6 2 = 0b11#2) (notRgb : tag ≠ 0xFE#8) (notRgba : tag ≠ 0xFF#8) :
    decode (tag :: rest) = .ok (.run ((tag.extractLsb' 0 6).toNat + 1), rest) := by
  have others : ¬ (0b11#2 : BitVec 2) = 0b00#2 ∧ ¬ (0b11#2 : BitVec 2) = 0b01#2 ∧ ¬ (0b11#2 : BitVec 2) = 0b10#2 := by
    decide
  simp only [decode, notRgb, notRgba, top, others.1, others.2.1, others.2.2, if_false]

end

/-! The fields of an encoded byte are the ones it was put together from (R58). -/

theorem diff_tag_fields (fr fg fb : BitVec 2) :
    (0b01#2 ++ fr ++ fg ++ fb : Byte).extractLsb' 6 2 = 0b01#2 ∧ (0b01#2 ++ fr ++ fg ++ fb : Byte).extractLsb' 4 2 = fr ∧
    (0b01#2 ++ fr ++ fg ++ fb : Byte).extractLsb' 2 2 = fg ∧ (0b01#2 ++ fr ++ fg ++ fb : Byte).extractLsb' 0 2 = fb := by
  revert fr fg fb; decide

theorem decodeDiff_fields (fr fg fb : BitVec 2) :
    decodeDiff (0b01#2 ++ fr ++ fg ++ fb) = .diff (unbias 2 fr) (unbias 2 fg) (unbias 2 fb) := by
  obtain ⟨-, red, green, blue⟩ := diff_tag_fields fr fg fb
  rw [decodeDiff, red, green, blue]

theorem decodeLuma_fields (fg : BitVec 6) (fr fb : BitVec 4) :
    decodeLuma (0b10#2 ++ fg) (fr ++ fb) = .luma (unbias 32 fg) (unbias 8 fr) (unbias 8 fb) := by
  simp only [decodeLuma, BitVec.extractLsb'_append_eq_left, BitVec.extractLsb'_append_eq_right]

/-- R51 to R58: the bytes of a well-formed opcode decode to it, whatever follows them. -/
theorem decode_encode_append {i : Instr} (wf : i.wellFormed = true) (rest : List Byte) :
    decode (encode i ++ rest) = .ok (i, rest) := by
  cases i with
  | rgb r g b => rfl
  | rgba r g b a => rfl
  | index h =>
    have number : Fin.ofNat 64 (0b00#2 ++ BitVec.ofNat 6 h.val : Byte).toNat = h := by
      revert h; decide
    refine (decode_of_index_tag rest BitVec.extractLsb'_append_eq_left).trans ?_
    rw [number]
  | diff dr dg db =>
    obtain ⟨red, green, blue⟩ := (wellFormed_diff_iff dr dg db).1 wf
    refine (decode_of_diff_tag rest (diff_tag_fields _ _ _).1).trans ?_
    rw [decodeDiff_fields, unbias_biased 2 2 dr, unbias_biased 2 2 dg, unbias_biased 2 2 db] <;> omega
  | luma dg drg dbg =>
    obtain ⟨green, red, blue⟩ := (wellFormed_luma_iff dg drg dbg).1 wf
    refine (decode_of_luma_tag rest BitVec.extractLsb'_append_eq_left _).trans ?_
    rw [decodeLuma_fields, unbias_biased 6 32 dg, unbias_biased 4 8 drg, unbias_biased 4 8 dbg] <;> omega
  | run n =>
    obtain ⟨low, high⟩ := (wellFormed_run_iff n).1 wf
    have payload : (BitVec.ofNat 6 (n - 1)).toNat = n - 1 := by
      rw [BitVec.toNat_ofNat, Nat.mod_eq_of_lt (by omega)]
    have notFull : ∀ full : Byte, 62 ≤ (full.extractLsb' 0 6).toNat →
        (0b11#2 ++ BitVec.ofNat 6 (n - 1) : Byte) ≠ full := by
      rintro _ greatest rfl
      rw [BitVec.extractLsb'_append_eq_right] at greatest
      omega
    refine (decode_of_run_tag rest BitVec.extractLsb'_append_eq_left (notFull _ (by decide)) (notFull _ (by decide))).trans ?_
    rw [BitVec.extractLsb'_append_eq_right, payload, Nat.sub_add_cancel low]

/-- R61, R51: five bytes, the length of the longest opcode, always start with a whole opcode. -/
theorem decode_of_five_le {bs : List Byte} (long : 5 ≤ bs.length) : ∃ i rest, decode bs = .ok (i, rest) := by
  match bs, long with
  | tag :: b1 :: b2 :: b3 :: b4 :: rest, _ =>
    simp only [decode]
    split_ifs <;> exact ⟨_, _, rfl⟩

namespace Machine

/-- The bytes that stand at the cursor, inside the input and no more than five, head the fetch window (R35 c). -/
theorem fetchWindow_of_stored {s : State} {bs : List Byte} (short : bs.length ≤ 5)
    (inside : s.dec.cursor + bs.length ≤ s.dec.inLen)
    (stored : ∀ k, k < bs.length → s.strIn.read (s.dec.cursor + k) = bs[k]?) :
    ∃ more, fetchWindow s = bs ++ more := by
  have head := s.strIn.window_eq s.dec.inLen s.dec.cursor bs inside stored
  refine ⟨s.strIn.window s.dec.inLen (s.dec.cursor + bs.length) (5 - bs.length), ?_⟩
  rw [fetchWindow, ← Nat.add_sub_of_le short, Memory.window_append _ _ _ _ _ (congrArg List.length head), head,
    Nat.add_sub_cancel_left]

/-- Settles O16: the stored bytes head the fetch window, and decoding them gives the opcode back. -/
theorem fetchReadsStoredOpcode : Obligations.FetchReadsStoredOpcode := by
  unfold Obligations.FetchReadsStoredOpcode
  intro s i wf inside stored
  simp only [← encode_length] at inside stored
  obtain ⟨more, window⟩ := fetchWindow_of_stored (encode_length i ▸ i.length_le_five) inside stored
  exact ⟨more, window ▸ decode_encode_append wf more⟩

/-- R39, R19: before `last_tag_cursor` the tag and eight bytes after it are inside the input. -/
theorem DecJob.cursor_add_nine_le {s : State} (job : DecJob s) (more : s.dec.cursor < s.dec.lastTagCursor) :
    s.dec.cursor + 9 ≤ s.dec.inLen := by
  have last := job.lastTag
  simp only [Config.epilogueLen] at last
  omega

/-- R39, R61: in a job a fetch always finds a whole opcode. -/
theorem DecJob.fetch_decodes {s : State} (job : DecJob s) (more : s.dec.cursor < s.dec.lastTagCursor) :
    ∃ i rest, decode (fetchWindow s) = .ok (i, rest) := by
  have inside := job.cursor_add_nine_le more
  have whole : (fetchWindow s).length = 5 :=
    Memory.window_length _ _ _ _ (by omega) fun a _ below => job.input a (by omega)
  exact decode_of_five_le whole.ge

/-- Settles O17: the longest opcode has five bytes, and nine are left at the cursor. -/
theorem fetchStaysInsideInput : Obligations.FetchStaysInsideInput := by
  unfold Obligations.FetchStaysInsideInput
  rintro s job ⟨-, -, more⟩
  obtain ⟨i, rest, decoded⟩ := job.fetch_decodes more
  have inside := job.cursor_add_nine_le more
  have longest := i.length_le_five
  exact ⟨i, rest, decoded, by omega⟩

end Machine

end Sys2Proof
end

section
/-! The encoder's pixel read (R31, R110). -/

namespace Sys2Proof.Machine

/-- The bytes that stand at the current pixel's address, inside the buffer and as many as the channels, are the ones read. -/
theorem readPixel_of_stored {s : State} {bs : List Byte} (count : bs.length = s.enc.desc.channels.toNat)
    (inside : pixelAddress s.enc.desc s.enc.pos + bs.length ≤ s.enc.pixLen)
    (stored : ∀ k, k < bs.length → s.pixIn.read (pixelAddress s.enc.desc s.enc.pos + k) = bs[k]?) :
    readPixel s = pixelOfBytes s.enc.desc.channels s.enc.codec.prev bs := by
  rw [readPixel, ← count, Memory.window_eq _ _ _ bs inside stored]

/-- Settles O23: three or four stored bytes make the pixel. -/
theorem currentPixelIsRead : Obligations.CurrentPixelIsRead := by
  unfold Obligations.CurrentPixelIsRead
  intro s r g b a red green blue
  constructor
  · intro channels inside
    have stored : ∀ k, k < [r, g, b].length →
        s.pixIn.read (pixelAddress s.enc.desc s.enc.pos + k) = [r, g, b][k]?
      | 0, _ => red
      | 1, _ => green
      | 2, _ => blue
    rw [readPixel_of_stored (by rw [channels]; rfl) inside stored, pixelOfBytes, if_pos channels]
  · intro channels inside alpha
    have stored : ∀ k, k < [r, g, b, a].length →
        s.pixIn.read (pixelAddress s.enc.desc s.enc.pos + k) = [r, g, b, a][k]?
      | 0, _ => red
      | 1, _ => green
      | 2, _ => blue
      | 3, _ => alpha
    rw [readPixel_of_stored (by rw [channels]; rfl) inside stored, pixelOfBytes, if_pos channels]

/-- R110: as many bytes as the channels make a pixel. -/
theorem pixelOfBytes_of_length {channels : Byte} {bs : List Byte} (prev : Pixel) (three_or_four : channels = 3 ∨ channels = 4)
    (count : bs.length = channels.toNat) : ∃ p, pixelOfBytes channels prev bs = some p := by
  rcases three_or_four with rfl | rfl
  · obtain ⟨r, g, b, rfl⟩ := List.length_eq_three.1 count
    exact ⟨⟨r, g, b, prev.a⟩, rfl⟩
  · match bs, count with
    | [r, g, b, a], _ => exact ⟨⟨r, g, b, a⟩, rfl⟩

/-- R125: in a job every pixel left can be read. -/
theorem EncJob.readPixel_some {s : State} (job : EncJob s) (left : s.enc.pos < s.enc.desc.pixelCount) :
    ∃ cur, readPixel s = some cur := by
  have inside : pixelAddress s.enc.desc s.enc.pos + s.enc.desc.channels.toNat ≤ s.enc.pixLen := by
    rw [pixelAddress, ← Nat.succ_mul, job.pixLen]
    exact Nat.mul_le_mul_right _ left
  exact pixelOfBytes_of_length _ job.legal.channels
    (Memory.window_length _ _ _ _ inside fun a _ below => job.input a (by omega))

end Sys2Proof.Machine
end

section
/-! Appends the sink refuses in the step of a pixel that differs from `prev` (R33, R176, R181), and the size of what it accepted
in a whole job (R44). -/

namespace Sys2Proof.Machine

/-- R112, R55: the byte of a pending run. -/
theorem encode_run_eq_pendingRunBytes {n : Nat} (pending : 0 < n) (bounded : n ≤ 62) :
    encode (.run n) = pendingRunBytes n := by
  have tagged : ∀ payload : BitVec 6, (0b11#2 ++ payload : Byte) = 0xC0#8 ||| payload.setWidth 8 := by decide
  have widened : (BitVec.ofNat 6 (n - 1)).setWidth 8 = BitVec.ofNat 8 (n - 1) := by
    apply BitVec.eq_of_toNat_eq
    simp only [BitVec.toNat_setWidth, BitVec.toNat_ofNat]
    omega
  rw [encode, tagged, widened, pendingRunBytes, if_neg (by omega)]

/-- Nothing accepted: the sink and `out_len` are as before. -/
theorem AcceptedOnly.nil {s t : State} (outLen : t.enc.outLen = s.enc.outLen) (strOut : t.strOut = s.strOut) :
    AcceptedOnly s t [] where
  outLen := outLen
  bytes := nofun
  below := fun _ _ => by rw [strOut]

/-- Bytes written at `out_len`. -/
theorem AcceptedOnly.of_written {s t : State} {bs : List Byte} (outLen : t.enc.outLen = s.enc.outLen + bs.length)
    (strOut : t.strOut = s.strOut.writeBytes s.enc.outLen bs) : AcceptedOnly s t bs where
  outLen := outLen
  bytes := fun k inside => by rw [strOut, Memory.read_writeBytes_inside _ _ _ k inside]
  below := fun a below => by rw [strOut, Memory.read_writeBytes_outside _ _ (by omega)]

/-- A move of ENC is the machine's step. -/
theorem step_of_encMoves {s s0 : State} (moves : EncMoves s s0) : step s = encTurn s0 := by
  rcases moves with ⟨none, idle, rfl⟩ | ⟨rest, turn, rfl⟩
  · simp only [step, none, defaultTurn, idle, if_false]
  · simp only [step, turn, takeInput, agentTurn]

/-- The step of a pixel that differs from `prev` (R109, R112). -/
theorem step_of_different_pixel {s s0 : State} {cur : Pixel} (moves : EncMoves s s0) (loop : s0.enc.InLoop)
    (read : readPixel s0 = some cur) (differs : cur ≠ s0.enc.codec.prev) :
    step s = .next ((flushRun s0).andThen (opcodeStep cur)) := by
  rw [step_of_encMoves moves, encTurn_of_pixel loop.1 loop.2 read, encodePixel, if_neg differs]

/-- Settles O26: the refused append is the RUN's if one is pending, else the opcode's; or the RUN is accepted and the opcode
refused. -/
theorem refusedAppendFails : Obligations.RefusedAppendFails := by
  unfold Obligations.RefusedAppendFails
  intro s s0 cur moves loop read differs bounded
  rw [step_of_different_pixel moves loop read differs]
  constructor
  · intro refused
    rcases Nat.eq_zero_or_pos s0.enc.codec.run with settled | pending
    · rw [flushRun_of_zero settled, Progress.andThen_go, opcodeStep_refused cur refused]
      exact ⟨_, rfl, rfl, .nil rfl rfl, rfl, rfl, rfl, rfl, rfl, rfl, ⟨rfl, rfl, rfl⟩⟩
    · rw [flushRun_of_pos pending, emitRun_refused refused, Progress.andThen_stop]
      exact ⟨_, rfl, rfl, .nil rfl rfl, rfl, rfl, rfl, rfl, rfl, rfl, ⟨rfl, rfl, rfl⟩⟩
  · intro accepted pending refusedNext
    rw [flushRun_of_pos pending, emitRun_accepted accepted, Progress.andThen_go, opcodeStep_refused cur (by exact refusedNext),
      ← encode_run_eq_pendingRunBytes pending (by omega)]
    exact ⟨_, rfl, rfl, .of_written rfl rfl, rfl, rfl, rfl, rfl, rfl, rfl, rfl, ⟨rfl, rfl, rfl⟩⟩

/-- Settles O30: the invariant is kept, and at DONE it bounds `out_len`. -/
theorem encodedSizeIsBounded : Obligations.EncodedSizeIsBounded := by
  unfold Obligations.EncodedSizeIsBounded
  intro s t inv _ moves finished
  obtain ⟨-, least, most⟩ := (inv.step moves).encDone finished
  exact ⟨least, most⟩

end Sys2Proof.Machine
end

section
/-! What the machine refuses, and that it never faults (R39, R43, R125, R206, R207). -/

namespace Sys2Proof.Machine

/-- The step takes the next input. -/
theorem step_of_input {s : State} {x : Input} {rest : List Input} (next : s.inputs = x :: rest) :
    step s = takeInput x { s with inputs := rest } := by
  simp only [step, next]

@[simp] theorem State.phaseOf_withInputs (s : State) (q : List Input) (a : Agent) :
    State.phaseOf { s with inputs := q } a = s.phaseOf a := by
  cases a <;> rfl

/-- R43: a command to an agent outside RUNNING whose buffers overlap is refused. -/
theorem issueCommand_of_overlap {s : State} {c : Command} (idle : s.phaseOf c.agent ≠ .running)
    (overlap : c.overlaps = true) : issueCommand c s = .refused (.overlappingBuffers c.agent) := by
  rw [issueCommand, if_neg idle, if_pos overlap]

/-- Settles O45: each act of the host tests the phase of its agent first, a command the overlap next. -/
theorem hostBreachesAreRefused : Obligations.HostBreachesAreRefused := by
  unfold Obligations.HostBreachesAreRefused
  intro s rest
  refine ⟨?_, ?_, ?_, ?_, ?_⟩
  · intro c issued running
    simp only [step_of_input issued, takeInput, issueCommand, State.phaseOf_withInputs, running, if_true]
  · intro d pixels issued idle
    rw [step_of_input issued]
    exact issueCommand_of_overlap idle rfl
  · intro stream issued idle
    rw [step_of_input issued]
    exact issueCommand_of_overlap idle rfl
  · intro a addr byte act running
    simp only [step_of_input act, takeInput, hostWrite, State.phaseOf_withInputs, running, if_true]
  · intro a act running
    simp only [step_of_input act, takeInput, collect, State.phaseOf_withInputs, running, if_true]

/-! No fault. -/

theorem safeOutcome_next (t : State) : SafeOutcome (.next t) := nofun

theorem safeOutcome_refused (r : Refusal) : SafeOutcome (.refused r) := nofun

/-- R206, R106: a command never faults, from any state. -/
theorem issueCommand_safe (c : Command) (s : State) : SafeOutcome (issueCommand c s) := by
  rw [issueCommand]
  split_ifs
  · exact safeOutcome_refused _
  · exact safeOutcome_refused _
  · cases c with
    | isQoi stream => exact safeOutcome_next _
    | parseDescriptor stream => exact safeOutcome_next _
    | encode d pixels overlap =>
      rw [startCommand]
      rcases startEncode_cases d pixels s with ⟨k, -, failed⟩ | refused | ⟨-, ⟨-, failed⟩ | ⟨-, started⟩⟩
      · rw [failed]; exact safeOutcome_next _
      · rw [refused]; exact safeOutcome_refused _
      · rw [failed]; exact safeOutcome_next _
      · rw [started]; exact safeOutcome_next _
    | decode stream overlap => exact safeOutcome_next _

theorem hostWrite_safe (a : Agent) (addr : Nat) (byte : Byte) (s : State) : SafeOutcome (hostWrite a addr byte s) := by
  unfold hostWrite
  split_ifs
  · exact safeOutcome_refused _
  · cases a <;> exact safeOutcome_next _

theorem collect_safe (a : Agent) (s : State) : SafeOutcome (collect a s) := by
  unfold collect
  split_ifs
  · exact safeOutcome_refused _
  · cases a <;> exact safeOutcome_next _

/-! An agent's move answers a next state where its half of the invariant holds. -/

/-- R125: ENC finds every pixel it reads. -/
theorem encTurn_next {s : State} (h : EncInv s) : ∃ t, encTurn s = .next t := by
  by_cases running : s.enc.control.phase = .running
  · by_cases left : s.enc.pos < s.enc.desc.pixelCount
    · obtain ⟨cur, read⟩ := (h.job running).readPixel_some left
      exact ⟨_, encTurn_of_pixel running left read⟩
    · exact ⟨finishEncode s, by simp only [encTurn, running, left, if_true, if_false]⟩
  · exact ⟨s, by simp only [encTurn, running, if_false]⟩

/-- R39, R61: DEC finds every opcode it fetches. -/
theorem decTurn_next {s : State} (h : DecInv s) : ∃ t, decTurn s = .next t := by
  by_cases running : s.dec.control.phase = .running
  · by_cases left : s.dec.opos < s.dec.desc.pixelCount
    · rw [decTurn_of_pixel running left]
      rcases decodePixel_cases s with ⟨-, replicated⟩ | ⟨-, -, exhausted⟩ |
        ⟨-, more, ⟨i, rest, -, executed⟩ | ⟨e, failed, -⟩⟩
      · exact ⟨_, replicated⟩
      · exact ⟨_, exhausted⟩
      · exact ⟨_, executed⟩
      · obtain ⟨i, rest, decoded⟩ := (h.job running).fetch_decodes more
        rw [decoded] at failed; cases failed
    · exact ⟨finishDecode s, by simp only [decTurn, running, left, if_true, if_false]⟩
  · exact ⟨s, by simp only [decTurn, running, if_false]⟩

section
variable {s : State} (h : s.Inv)
include h

theorem agentTurn_next (a : Agent) : ∃ t, agentTurn a s = .next t := by
  cases a with
  | enc => exact encTurn_next h.encHalf
  | dec => exact decTurn_next h.decHalf

theorem defaultTurn_next : ∃ t, defaultTurn s = .next t := by
  unfold defaultTurn
  split_ifs
  · exact decTurn_next h.decHalf
  · exact encTurn_next h.encHalf

/-- An input is an agent's turn, which answers a next state, or an act of the host, which never faults. -/
theorem takeInput_cases (x : Input) :
    (∃ t, takeInput x s = .next t) ∨ SafeOutcome (takeInput x s) ∧ ∀ a, x ≠ .turn a := by
  cases x with
  | command c => exact .inr ⟨issueCommand_safe c s, nofun⟩
  | hostWrite a addr byte => exact .inr ⟨hostWrite_safe a addr byte s, nofun⟩
  | collect a => exact .inr ⟨collect_safe a s, nofun⟩
  | turn a => exact .inl (agentTurn_next h a)

end

/-- Settles O51: agents answer a next state, and what the host does wrong is refused. -/
theorem stepNeverFaults : Obligations.StepNeverFaults := by
  unfold Obligations.StepNeverFaults
  intro s inv
  rcases inputs : s.inputs with _ | ⟨x, rest⟩
  · obtain ⟨t, moves⟩ := defaultTurn_next inv
    have next : step s = .next t := by simp only [step, inputs, moves]
    rw [next]
    exact ⟨safeOutcome_next t, nofun⟩
  · rw [step_of_input inputs]
    rcases takeInput_cases (inv.withInputs rest) x with ⟨t, next⟩ | ⟨safe, hostAct⟩
    · rw [next]
      exact ⟨safeOutcome_next t, nofun⟩
    · exact ⟨safe, fun _ _ => ⟨x, rest, rfl, hostAct⟩⟩

end Sys2Proof.Machine
end

section
/-! The encodings (R51 to R61, R64). What each opcode's bytes are: in the source's formulas, as numbers that place the first
byte in its range, and as the fields of any byte put together again. Decoding and encoding are then inverse to each other. -/

namespace Sys2Proof

/-- Settles O1, by `decode_encode_append`: the tag of each encoding selects its case of the decoder, and each field gives its
operand back. -/
theorem decodeOfEncode : Obligations.DecodeOfEncode := by
  unfold Obligations.DecodeOfEncode
  exact fun _ rest wf => decode_encode_append wf rest

/-! A byte is put together again from the fields cut out of it. -/

/-- R52, R54, R55: the two-bit tag and the six bits below it. -/
theorem tag_append_payload {tag : Byte} {top : BitVec 2} (h : tag.extractLsb' 6 2 = top) :
    (top ++ tag.extractLsb' 0 6 : Byte) = tag := by
  subst h
  revert tag; decide

/-- R53: the two-bit tag and the three two-bit fields. -/
theorem tag_append_diff_fields {tag : Byte} (top : tag.extractLsb' 6 2 = 0b01#2) :
    (0b01#2 ++ tag.extractLsb' 4 2 ++ tag.extractLsb' 2 2 ++ tag.extractLsb' 0 2 : Byte) = tag := by
  revert tag; decide

/-- R54: the two nibbles of LUMA's second byte. -/
theorem nibble_append_nibble (b2 : Byte) : (b2.extractLsb' 4 4 ++ b2.extractLsb' 0 4 : Byte) = b2 := by
  revert b2; decide

theorem encode_index_ofNat {tag : Byte} (top : tag.extractLsb' 6 2 = 0b00#2) :
    encode (.index (Fin.ofNat 64 tag.toNat)) = [tag] := by
  have payload : BitVec.ofNat 6 (Fin.ofNat 64 tag.toNat).val = tag.extractLsb' 0 6 := by
    revert tag; decide
  rw [encode, payload, tag_append_payload top]

theorem encode_decodeDiff {tag : Byte} (top : tag.extractLsb' 6 2 = 0b01#2) : encode (decodeDiff tag) = [tag] := by
  rw [decodeDiff, encode, biased_unbias, biased_unbias, biased_unbias, tag_append_diff_fields top]

theorem encode_decodeLuma {tag : Byte} (top : tag.extractLsb' 6 2 = 0b10#2) (b2 : Byte) :
    encode (decodeLuma tag b2) = [tag, b2] := by
  rw [decodeLuma, encode, biased_unbias, biased_unbias, biased_unbias, tag_append_payload top, nibble_append_nibble]

theorem encode_run_payload {tag : Byte} (top : tag.extractLsb' 6 2 = 0b11#2) :
    encode (.run ((tag.extractLsb' 0 6).toNat + 1)) = [tag] := by
  rw [encode, Nat.add_sub_cancel, BitVec.ofNat_toNat, BitVec.setWidth_eq, tag_append_payload top]

/-! What is decoded is well formed (R58): a field's value is in the range its bias gives. -/

theorem wellFormed_decodeDiff (tag : Byte) : (decodeDiff tag).wellFormed = true := by
  have red := unbias_range 2 (tag.extractLsb' 4 2)
  have green := unbias_range 2 (tag.extractLsb' 2 2)
  have blue := unbias_range 2 (tag.extractLsb' 0 2)
  rw [decodeDiff, wellFormed_diff_iff]
  omega

theorem wellFormed_decodeLuma (tag b2 : Byte) : (decodeLuma tag b2).wellFormed = true := by
  have green := unbias_range 32 (tag.extractLsb' 0 6)
  have red := unbias_range 8 (b2.extractLsb' 4 4)
  have blue := unbias_range 8 (b2.extractLsb' 0 4)
  rw [decodeLuma, wellFormed_luma_iff]
  omega

theorem wellFormed_run_payload {tag : Byte} (notRgb : tag ≠ 0xFE#8) (notRgba : tag ≠ 0xFF#8)
    (top : tag.extractLsb' 6 2 = 0b11#2) : (Instr.run ((tag.extractLsb' 0 6).toNat + 1)).wellFormed = true :=
  (wellFormed_run_iff _).2 ⟨Nat.le_add_left 1 _, Machine.run_field_le notRgb notRgba top⟩

/-- R58, R59: whatever the first byte, the opcode read is well formed and its bytes are the ones read. -/
theorem wellFormed_and_encode_of_decode {bs : List Byte} {i : Instr} {rest : List Byte} (decoded : decode bs = .ok (i, rest)) :
    i.wellFormed = true ∧ encode i ++ rest = bs := by
  unfold decode at decoded
  split at decoded
  · cases decoded
  · rename_i tag extra
    split_ifs at decoded with rgb rgba index diff luma
    · split at decoded <;> cases decoded
      exact ⟨rfl, rgb ▸ rfl⟩
    · split at decoded <;> cases decoded
      exact ⟨rfl, rgba ▸ rfl⟩
    · cases decoded
      exact ⟨rfl, by rw [encode_index_ofNat index]; rfl⟩
    · cases decoded
      exact ⟨wellFormed_decodeDiff tag, by rw [encode_decodeDiff diff]; rfl⟩
    · split at decoded <;> cases decoded
      exact ⟨wellFormed_decodeLuma tag _, by rw [encode_decodeLuma luma]; rfl⟩
    · cases decoded
      have others : ∀ v : BitVec 2, v ≠ 0b00#2 → v ≠ 0b01#2 → v ≠ 0b10#2 → v = 0b11#2 := by decide
      have top := others _ index diff luma
      exact ⟨wellFormed_run_payload rgb rgba top, by rw [encode_run_payload top]; rfl⟩

/-- Settles O2, range by range of the first byte. -/
theorem encodeOfDecode : Obligations.EncodeOfDecode := by
  unfold Obligations.EncodeOfDecode
  exact fun _ _ _ => wellFormed_and_encode_of_decode

/-! The first byte fixes the length (R51, R59, R60). -/

/-- R60: the byte of a RUN. -/
theorem encode_run_toNat {n : Nat} (wf : (Instr.run n).wellFormed = true) :
    (0b11#2 ++ BitVec.ofNat 6 (n - 1) : Byte).toNat = 0xC0 + (n - 1) := by
  obtain ⟨-, high⟩ := (wellFormed_run_iff n).1 wf
  have payload : (BitVec.ofNat 6 (n - 1)).toNat = n - 1 := Nat.mod_eq_of_lt (by omega)
  rw [Machine.toNat_append_eq_add, payload]
  rfl

/-- Settles O5: 0xC0 plus a payload of at most 61. -/
theorem runByteIsNoFullTag : Obligations.RunByteIsNoFullTag := by
  unfold Obligations.RunByteIsNoFullTag
  intro n wf
  obtain ⟨low, high⟩ := (wellFormed_run_iff n).1 wf
  have value := encode_run_toNat wf
  exact ⟨_, rfl, by omega, by omega, value⟩

/-- R51, R59: the length the first byte fixes. -/
def lengthOfTag (tag : Nat) : Nat :=
  if tag = 0xFE then 4 else if tag = 0xFF then 5 else if 0x80 ≤ tag ∧ tag ≤ 0xBF then 2 else 1

theorem lengthOfTag_of_top_ne {tag : Byte} (notFull : tag.extractLsb' 6 2 ≠ 0b11#2) :
    lengthOfTag tag.toNat = if tag.extractLsb' 6 2 = 0b10#2 then 2 else 1 := by
  revert tag; decide

theorem length_eq_lengthOfTag {i : Instr} (wf : i.wellFormed = true) {tag : Byte} {extra : List Byte}
    (bytes : encode i = tag :: extra) : i.length = lengthOfTag tag.toNat := by
  cases i <;> cases bytes
  case rgb => rfl
  case rgba => rfl
  case index h =>
    have top : (0b00#2 ++ BitVec.ofNat 6 h.val : Byte).extractLsb' 6 2 = 0b00#2 := BitVec.extractLsb'_append_eq_left
    rw [lengthOfTag_of_top_ne (by rw [top]; decide), top]
    rfl
  case diff dr dg db =>
    obtain ⟨top, -⟩ := diff_tag_fields (biased 2 2 dr) (biased 2 2 dg) (biased 2 2 db)
    rw [lengthOfTag_of_top_ne (by rw [top]; decide), top]
    rfl
  case luma dg drg dbg =>
    have top : (0b10#2 ++ biased 6 32 dg : Byte).extractLsb' 6 2 = 0b10#2 := BitVec.extractLsb'_append_eq_left
    rw [lengthOfTag_of_top_ne (by rw [top]; decide), top]
    rfl
  case run n =>
    obtain ⟨low, high⟩ := (wellFormed_run_iff n).1 wf
    rw [encode_run_toNat wf, lengthOfTag, if_neg (by omega), if_neg (by omega), if_neg (by omega)]
    rfl

/-- Settles O3: five bytes decode, the opcode's own bytes head them, and the first of these fixes the length. -/
theorem decodeIsTotal : Obligations.DecodeIsTotal := by
  unfold Obligations.DecodeIsTotal
  intro tag b1 b2 b3 b4 rest
  obtain ⟨i, left, decoded⟩ := decode_of_five_le (bs := tag :: b1 :: b2 :: b3 :: b4 :: rest) (by simp)
  obtain ⟨wf, bytes⟩ := wellFormed_and_encode_of_decode decoded
  refine ⟨i, ?_, ?_⟩
  · rw [decoded, ← bytes, ← encode_length, List.drop_left]
  · obtain ⟨first, extra, encoded⟩ := List.exists_cons_of_length_pos (encode_length i ▸ i.length_pos)
    rw [encoded, List.cons_append, List.cons.injEq] at bytes
    exact bytes.1 ▸ length_eq_lengthOfTag wf encoded

/-! The bytes in the source's formulas (R64): a field in its place is its value shifted there. -/

/-- R58: a value that fits its field, as a byte. -/
theorem ofInt_eq_setWidth_biased {w : Nat} {bias d : Int} (low : 0 ≤ d + bias) (high : d + bias < 2 ^ w) :
    BitVec.ofInt 8 (d + bias) = (biased w bias d).setWidth 8 := by
  obtain ⟨v, value⟩ := Int.eq_ofNat_of_zero_le low
  have fits : v < 2 ^ w := by rw [value] at high; exact_mod_cast high
  rw [biased, value, BitVec.ofInt_natCast, BitVec.ofInt_natCast]
  apply BitVec.eq_of_toNat_eq
  rw [BitVec.toNat_setWidth, BitVec.toNat_ofNat, BitVec.toNat_ofNat, Nat.mod_eq_of_lt fits]

theorem diff_tag_eq_or (fr fg fb : BitVec 2) : (0b01#2 ++ fr ++ fg ++ fb : Byte) =
    0x40#8 ||| (fr.setWidth 8 <<< 4) ||| (fg.setWidth 8 <<< 2) ||| fb.setWidth 8 := by
  revert fr fg fb; decide

theorem luma_tag_eq_or (fg : BitVec 6) : (0b10#2 ++ fg : Byte) = 0x80#8 ||| fg.setWidth 8 := by
  revert fg; decide

theorem nibbles_eq_or (fr fb : BitVec 4) : (fr ++ fb : Byte) = (fr.setWidth 8 <<< 4) ||| fb.setWidth 8 := by
  revert fr fb; decide

theorem encode_index_eq (h : Fin 64) : encode (.index h) = [BitVec.ofNat 8 h.val] := by
  revert h; decide

/-- Settles O4, opcode by opcode. -/
theorem encodedBytesAsFormulas : Obligations.EncodedBytesAsFormulas := by
  unfold Obligations.EncodedBytesAsFormulas
  refine ⟨encode_index_eq, ?_, ?_, ?_, fun _ _ _ => rfl, fun _ _ _ _ => rfl⟩
  · intro dr dg db wf
    obtain ⟨red, green, blue⟩ := (wellFormed_diff_iff dr dg db).1 wf
    have field : ∀ d : Int, -2 ≤ d ∧ d ≤ 1 → BitVec.ofInt 8 (d + 2) = (biased 2 2 d).setWidth 8 := fun d range =>
      ofInt_eq_setWidth_biased (by omega) (by omega)
    rw [encode, diff_tag_eq_or, field dr red, field dg green, field db blue]
  · intro dg drg dbg wf
    obtain ⟨green, red, blue⟩ := (wellFormed_luma_iff dg drg dbg).1 wf
    have field : ∀ d : Int, -8 ≤ d ∧ d ≤ 7 → BitVec.ofInt 8 (d + 8) = (biased 4 8 d).setWidth 8 := fun d range =>
      ofInt_eq_setWidth_biased (by omega) (by omega)
    rw [encode, luma_tag_eq_or, nibbles_eq_or, field drg red, field dbg blue,
      ofInt_eq_setWidth_biased (w := 6) (by omega) (by omega)]
  · intro n wf
    obtain ⟨low, high⟩ := (wellFormed_run_iff n).1 wf
    rw [Machine.encode_run_eq_pendingRunBytes low high, Machine.pendingRunBytes, if_neg (by omega)]

theorem decode_of_encode_eq {i : Instr} {bs : List Byte} (wf : i.wellFormed = true) (bytes : encode i = bs) :
    decode bs = .ok (i, []) := by
  rw [← bytes, ← decode_encode_append wf [], List.append_nil]

/-- Settles O6: each word is its opcode's encoding, and encodings are read back. -/
theorem sampleWordsDecode : Obligations.SampleWordsDecode := by
  unfold Obligations.SampleWordsDecode
  exact ⟨decode_of_encode_eq (i := .index 9) (by decide) (by decide),
    decode_of_encode_eq (i := .diff (-2) (-1) 1) (by decide) (by decide),
    decode_of_encode_eq (i := .luma 10 (-7) 7) (by decide) (by decide),
    decode_of_encode_eq (i := .run 62) (by decide) (by decide),
    decode_of_encode_eq (i := .rgb 10 20 30) rfl rfl,
    decode_of_encode_eq (i := .rgba 0 1 2 128) rfl rfl⟩

end Sys2Proof
end

section
/-! The end of an encoder job (R62, R121). -/

namespace Sys2Proof.Machine

/-- Bytes written at `out_len`, and nowhere else. -/
theorem Appended.of_written {s t : State} {bs : List Byte} (outLen : t.enc.outLen = s.enc.outLen + bs.length)
    (strOut : t.strOut = s.strOut.writeBytes s.enc.outLen bs) : Appended s t bs where
  outLen := outLen
  bytes := fun k inside => by rw [strOut, Memory.read_writeBytes_inside _ _ _ k inside]
  elsewhere := fun a outside => by rw [strOut, Memory.read_writeBytes_outside _ _ outside]

/-- A move of ENC with no pixel left: the end of the job. -/
theorem encTurn_of_last {s : State} (running : s.enc.control.phase = .running)
    (last : s.enc.desc.pixelCount ≤ s.enc.pos) : encTurn s = .next (finishEncode s) := by
  simp only [encTurn, running, Nat.not_lt.2 last, if_true, if_false]

/-- Settles O29: the accepted epilogue, its fields read off. -/
theorem epilogueEndsEncode : Obligations.EpilogueEndsEncode := by
  unfold Obligations.EpilogueEndsEncode
  intro s s0 moves running last accepted
  rw [step_of_encMoves moves, encTurn_of_last running last.ge, finishEncode_accepted accepted]
  exact ⟨_, rfl, rfl, .of_written rfl rfl, rfl, rfl, rfl, rfl, rfl, rfl, ⟨rfl, rfl, rfl⟩⟩

end Sys2Proof.Machine
end

section
/-! The decoder inverts the encoder's choice of opcode (R58, R75, R115 to R119, R147, R148, R154): the wrap-around differences
are read as signed numbers, fit the fields by the test that selected the opcode, and lead back to the pixel. -/

namespace Sys2Proof.Machine

/-! The range tests as ranges of the signed reading (R75 (b)). -/

theorem s8_range_of_inDiffRange {v : Byte} (fits : inDiffRange v = true) : -2 ≤ s8 v ∧ s8 v ≤ 1 := by
  revert v; decide

theorem s8_range_of_inLumaGreenRange {v : Byte} (fits : inLumaGreenRange v = true) : -32 ≤ s8 v ∧ s8 v ≤ 31 := by
  revert v; decide

theorem s8_range_of_inLumaCrossRange {v : Byte} (fits : inLumaCrossRange v = true) : -8 ≤ s8 v ∧ s8 v ≤ 7 := by
  revert v; decide

/-- The encoder selects opcodes with operands in the range of their encodings. -/
theorem selectOpcode_wellFormed (cur prev : Pixel) : (selectOpcode cur prev).wellFormed = true := by
  unfold selectOpcode differences
  dsimp only
  split_ifs with alpha diff luma
  · simp only [diffFits, differences, Bool.and_eq_true] at diff
    obtain ⟨⟨red, green⟩, blue⟩ := diff
    exact (wellFormed_diff_iff _ _ _).2
      ⟨s8_range_of_inDiffRange red, s8_range_of_inDiffRange green, s8_range_of_inDiffRange blue⟩
  · simp only [lumaFits, differences, Bool.and_eq_true] at luma
    obtain ⟨⟨green, red⟩, blue⟩ := luma
    exact (wellFormed_luma_iff _ _ _).2
      ⟨s8_range_of_inLumaGreenRange green, s8_range_of_inLumaCrossRange red, s8_range_of_inLumaCrossRange blue⟩
  · rfl
  · rfl

theorem chosen_wellFormed (c : Codec) (cur : Pixel) : (chosen c cur).wellFormed = true := by
  unfold chosen
  split_ifs
  · rfl
  · exact selectOpcode_wellFormed cur c.prev

/-- R117, R148: green's difference and the second-level difference lead back to the component. -/
theorem addSigned_second_level (cur prev green : Byte) :
    addSigned prev (s8 green + s8 (sub8 (sub8 cur prev) green)) = cur := by
  rw [addSigned_eq_add8, BitVec.ofInt_add, ofInt_s8, ofInt_s8]
  simp [add8, sub8]

/-- What the decoder makes of the opcode selected after a miss. -/
theorem codecAfter_selectOpcode (d : Codec) (cur : Pixel) : codecAfter d (selectOpcode cur d.prev) = d.materialize cur := by
  unfold selectOpcode differences
  dsimp only
  split_ifs with alpha diff luma
  · simp only [codecAfter, shiftedPixel, addSigned_s8_sub8, ← alpha]
  · simp only [codecAfter, shiftedPixel, addSigned_s8_sub8, addSigned_second_level, ← alpha]
  · simp only [codecAfter, ← alpha]
  · rfl

/-- R154: the decoder that agrees with the encoder makes the pixel of the opcode the encoder chose for it. -/
theorem codecAfter_chosen {c d : Codec} (prev : d.prev = c.prev) (index : d.index = c.index) (cur : Pixel) :
    codecAfter d (chosen c cur) = d.materialize cur := by
  unfold chosen
  split_ifs with hit
  · rw [codecAfter, Codec.entry_congr index, hit]
  · rw [← prev, codecAfter_selectOpcode]

theorem Codec.insert_index_congr {c d : Codec} (index : d.index = c.index) (p : Pixel) :
    (d.insert p).index = (c.insert p).index := by
  simp only [Codec.insert, index]

/-- Settles O56: both agents insert the pixel and make it their `prev`. -/
theorem decoderFollowsEncoder : Obligations.DecoderFollowsEncoder := by
  unfold Obligations.DecoderFollowsEncoder
  intro s cur prev index _ accepted _
  have decoder : (writePixel (beforeWrite (chosen s.enc.codec cur) s)).dec.codec = s.dec.codec.materialize cur := by
    rw [writePixel_codec, beforeWrite, Dec.executed_codec, codecAfter_chosen prev index]
  refine ⟨chosen s.enc.codec cur, _, chosen_wellFormed _ _, ?_, ?_, exec_eq _ s, ?_, ?_, ?_⟩
  · rw [opcodeStep_accepted cur accepted]
  · rw [opcodeStep_accepted cur accepted, ← encode_length]
  · rw [decoder, Codec.materialize_prev]
  · rw [decoder, Codec.materialize_prev, opcodeStep_accepted cur accepted]
  · rw [decoder, Codec.materialize_index, opcodeStep_accepted cur accepted]
    exact Codec.insert_index_congr index cur

end Sys2Proof.Machine
end

section
/-! The range tests and the hash (R73 to R75): each byte test is a signed interval, which carries over to a difference of
differences, and 64 divides the moduli of the narrow datapaths. -/

namespace Sys2Proof.Machine

theorem s8_eq_toInt (v : Byte) : s8 v = v.toInt := by
  rw [s8, BitVec.toInt_eq_toNat_cond]
  split_ifs <;> omega

/-- R7: the signed reading of a difference is the difference of the signed readings, wrapped around into -128..127. -/
theorem s8_sub8 (a b : Byte) : s8 (sub8 a b) = (s8 a - s8 b).bmod 256 := by
  simp only [s8_eq_toInt, sub8]
  exact BitVec.toInt_sub

theorem s8_bounds (v : Byte) : -128 ≤ s8 v ∧ s8 v ≤ 127 := by
  rw [s8_eq_toInt]
  exact ⟨BitVec.le_toInt v, BitVec.toInt_le⟩

/-- R75 (b): the test of a byte with a bias added, as the unsigned representatives of the interval. -/
theorem add8_lt_iff_representative (v : Byte) {bias : Nat} (small : bias ≤ 128) :
    (add8 v (BitVec.ofNat 8 bias)).toNat < 2 * bias ↔ v.toNat > 255 - bias ∨ v.toNat < bias := by
  have byte := v.isLt
  rw [add8, BitVec.toNat_add, BitVec.toNat_ofNat]
  omega

/-- R75 (b): the unsigned representatives of a signed interval that is symmetric about -1/2. -/
theorem s8_range_iff_representative (v : Byte) {bias : Nat} (small : bias ≤ 128) :
    (-bias ≤ s8 v ∧ s8 v ≤ bias - 1) ↔ v.toNat > 255 - bias ∨ v.toNat < bias := by
  have byte := v.isLt
  rw [s8]
  split_ifs <;> omega

theorem inDiffRange_iff_representative (v : Byte) : inDiffRange v = true ↔ v.toNat > 253 ∨ v.toNat < 2 :=
  decide_eq_true_iff.trans (add8_lt_iff_representative v (bias := 2) (by decide))

theorem inLumaGreenRange_iff_representative (v : Byte) :
    inLumaGreenRange v = true ↔ v.toNat > 223 ∨ v.toNat < 32 :=
  decide_eq_true_iff.trans (add8_lt_iff_representative v (bias := 32) (by decide))

theorem inLumaCrossRange_iff_representative (v : Byte) :
    inLumaCrossRange v = true ↔ v.toNat > 247 ∨ v.toNat < 8 :=
  decide_eq_true_iff.trans (add8_lt_iff_representative v (bias := 8) (by decide))

theorem inDiffRange_iff_s8 (v : Byte) : inDiffRange v = true ↔ -2 ≤ s8 v ∧ s8 v ≤ 1 :=
  (inDiffRange_iff_representative v).trans (s8_range_iff_representative v (bias := 2) (by decide)).symm

theorem inLumaGreenRange_iff_s8 (v : Byte) : inLumaGreenRange v = true ↔ -32 ≤ s8 v ∧ s8 v ≤ 31 :=
  (inLumaGreenRange_iff_representative v).trans (s8_range_iff_representative v (bias := 32) (by decide)).symm

theorem inLumaCrossRange_iff_s8 (v : Byte) : inLumaCrossRange v = true ↔ -8 ≤ s8 v ∧ s8 v ≤ 7 :=
  (inLumaCrossRange_iff_representative v).trans (s8_range_iff_representative v (bias := 8) (by decide)).symm

/-- R75 (d): an integer in -159..159 lies in -8..7 exactly when its residue read in -128..127 does. -/
theorem bmod_cross_range_iff {d : Int} (lower : -159 ≤ d) (upper : d ≤ 159) :
    (-8 ≤ d.bmod 256 ∧ d.bmod 256 ≤ 7) ↔ -8 ≤ d ∧ d ≤ 7 := by
  rw [Int.bmod_def]
  split_ifs <;> omega

/-- Settles O34: the integer difference lies in -159..159, where wrapping around does not reach the cross range. -/
theorem secondLevelDifference : Obligations.SecondLevelDifference := by
  unfold Obligations.SecondLevelDifference
  intro vr vg green
  obtain ⟨greenLower, greenUpper⟩ := (inLumaGreenRange_iff_s8 vg).1 green
  obtain ⟨redLower, redUpper⟩ := s8_bounds vr
  rw [inLumaCrossRange_iff_s8, s8_sub8]
  exact bmod_cross_range_iff (by omega) (by omega)

/-- Settles O33: the three tests are those of the biases 2, 32 and 8. -/
theorem rangeTestsAreSigned : Obligations.RangeTestsAreSigned := fun v =>
  ⟨⟨inDiffRange_iff_s8 v, inDiffRange_iff_representative v⟩,
    ⟨inLumaGreenRange_iff_s8 v, inLumaGreenRange_iff_representative v⟩,
    ⟨inLumaCrossRange_iff_s8 v, inLumaCrossRange_iff_representative v⟩⟩

theorem pixelHash_val (p : Pixel) :
    (pixelHash p).val = (3 * p.r.toNat + 5 * p.g.toNat + 7 * p.b.toNat + 11 * p.a.toNat) % 64 := rfl

/-- R74: the weighted sum on a datapath of `w` bits is the exact sum mod `2 ^ w`. -/
theorem weightedSum_toNat (w : Nat) (r g b a : Byte) :
    (3 * r.setWidth w + 5 * g.setWidth w + 7 * b.setWidth w + 11 * a.setWidth w).toNat =
      (3 * r.toNat + 5 * g.toNat + 7 * b.toNat + 11 * a.toNat) % 2 ^ w := by
  simp [BitVec.toNat_add, BitVec.toNat_mul, Nat.add_mod, Nat.mul_mod]

/-- R74: eight bits suffice, because 64 divides 256. -/
theorem pixelHash_eq_byteSum (p : Pixel) :
    (pixelHash p).val = (3 * p.r + 5 * p.g + 7 * p.b + 11 * p.a).toNat % 64 := by
  have sum := weightedSum_toNat 8 p.r p.g p.b p.a
  simp only [BitVec.setWidth_eq] at sum
  rw [sum, Nat.mod_mod_of_dvd _ (by decide), pixelHash_val]

/-- Settles O31: the exact sum, and its values on the datapaths of eight and of six bits. -/
theorem hashOnNarrowDatapaths : Obligations.HashOnNarrowDatapaths := fun p =>
  ⟨pixelHash_val p, pixelHash_eq_byteSum p, (weightedSum_toNat 6 p.r p.g p.b p.a).symm⟩

end Sys2Proof.Machine
end

section
/-! The header parser's checks (R80 to R82, R86), and the two commands that answer what it finds (R136 to R138, R167). The
parser sees the first 14 bytes only, so what a command makes of its stream is what the parser makes of the whole stream. -/

namespace Sys2Proof.Machine

/-- R80: a big-endian number of four bytes is their number in base 256. -/
theorem be32_toNat (b0 b1 b2 b3 : Byte) :
    (be32 b0 b1 b2 b3).toNat = b0.toNat * 2 ^ 24 + b1.toNat * 2 ^ 16 + b2.toNat * 2 ^ 8 + b3.toNat := by
  simp only [be32, toNat_append_eq_add]
  omega

/-- R80: the descriptor that stands in a header, whether it is valid or not. -/
def headerDescriptor (bs : List Byte) : Descriptor where
  width := be32 (bs.getD 4 0) (bs.getD 5 0) (bs.getD 6 0) (bs.getD 7 0)
  height := be32 (bs.getD 8 0) (bs.getD 9 0) (bs.getD 10 0) (bs.getD 11 0)
  channels := bs.getD 12 0
  colorspace := bs.getD 13 0

theorem headerDescriptor_width (bs : List Byte) : (headerDescriptor bs).width.toNat = headerNumber bs 4 :=
  be32_toNat _ _ _ _

theorem headerDescriptor_height (bs : List Byte) : (headerDescriptor bs).height.toNat = headerNumber bs 8 :=
  be32_toNat _ _ _ _

/-- R82, step 1. -/
theorem parseHeader_of_short {bs : List Byte} (short : bs.length < 14) : parseHeader bs = .error .tooSmall := by
  unfold parseHeader
  split
  · simp only [List.length_cons] at short
    omega
  · rfl

/-- R82, steps 2 to 6: with 14 bytes the magic is tested, then the descriptor's fields. -/
theorem parseHeader_of_long {bs : List Byte} (long : 14 ≤ bs.length) :
    parseHeader bs =
      if bs.take 4 ≠ magic then .error .missingSignature else checkDescriptor (headerDescriptor bs) := by
  match bs, long with
  | _ :: _ :: _ :: _ :: _ :: _ :: _ :: _ :: _ :: _ :: _ :: _ :: _ :: _ :: _, _ => rfl

/-- R83: bytes past the 14th are not looked at. -/
theorem parseHeader_take (bs : List Byte) : parseHeader (bs.take 14) = parseHeader bs := by
  rcases Nat.lt_or_ge bs.length 14 with short | long
  · rw [List.take_of_length_le short.le]
  · match bs, long with
    | _ :: _ :: _ :: _ :: _ :: _ :: _ :: _ :: _ :: _ :: _ :: _ :: _ :: _ :: _, _ => rfl

/-- R86, R83: an emitted header is parsed back, whatever follows it. -/
theorem parseHeader_emitHeader_append {d : Descriptor} (valid : d.FieldsValid) (rest : List Byte) :
    parseHeader (emitHeader d ++ rest) = .ok d := by
  have header : (emitHeader d ++ rest).take 14 = emitHeader d := List.take_left' rfl
  rw [← parseHeader_take, header, parseHeader_emitHeader valid]

/-- Settles O35: the bytes after the header are not looked at, and an emitted header is parsed back. -/
theorem headerRoundTrip : Obligations.HeaderRoundTrip := by
  unfold Obligations.HeaderRoundTrip
  intro d rest width height channels colorspace
  exact parseHeader_emitHeader_append ⟨d.pixelCount_pos_iff.2 ⟨width, height⟩, channels, colorspace⟩ rest

/-! The field checks (R82, steps 3 to 6), each with the ones before it passed. -/

section
variable {d : Descriptor}

theorem checkDescriptor_of_zero (zero : d.width = 0 ∨ d.height = 0) : checkDescriptor d = .error .zeroDimension :=
  if_pos zero

variable (width : d.width ≠ 0) (height : d.height ≠ 0)
include width height

theorem checkDescriptor_of_channels (three : d.channels ≠ 3) (four : d.channels ≠ 4) :
    checkDescriptor d = .error .invalidChannel := by
  rw [checkDescriptor, if_neg (not_or.2 ⟨width, height⟩), if_pos ⟨three, four⟩]

theorem checkDescriptor_of_colorspace (channels : d.channels = 3 ∨ d.channels = 4) (zero : d.colorspace ≠ 0)
    (one : d.colorspace ≠ 1) : checkDescriptor d = .error .invalidColorspace := by
  rw [checkDescriptor, if_neg (not_or.2 ⟨width, height⟩), if_neg (by tauto), if_pos ⟨zero, one⟩]

end

/-- Settles O36: the parser tests the length and the magic, then the fields of the descriptor in the header. -/
theorem headerChecksInOrder : Obligations.HeaderChecksInOrder := by
  unfold Obligations.HeaderChecksInOrder
  intro bs
  rw [← headerDescriptor_width, ← headerDescriptor_height]
  have zero : ∀ v : BitVec 32, v.toNat = 0 ↔ v = 0 := fun v => BitVec.toNat_inj (x := v) (y := 0)
  simp only [Ne, zero]
  refine ⟨parseHeader_of_short, fun long unsigned => ?_, fun long signed => ?_⟩
  · rw [parseHeader_of_long long, if_pos unsigned]
  · rw [parseHeader_of_long long, if_neg (not_not.2 signed)]
    exact ⟨checkDescriptor_of_zero, fun width height => ⟨checkDescriptor_of_channels width height, fun channels =>
      ⟨checkDescriptor_of_colorspace width height channels, fun colorspace =>
        ⟨_, (checkDescriptor_ok_iff _ _).2 ⟨rfl, (Descriptor.pixelCount_pos_iff _).2 ⟨width, height⟩, channels, colorspace⟩,
          rfl, rfl, rfl, rfl⟩⟩⟩⟩

/-- R136: a header error ends DECODE with the stream taken and nothing else done. -/
theorem startDecode_of_error {stream : List Byte} {k : ErrorKind} (failed : parseHeader stream = .error k) (s : State) :
    startDecode stream s = raiseDec k (latchStream stream s) := by
  simp only [startDecode, headerWindow_latchStream, parseHeader_take, failed]

/-- The inputs to come have no part in an error at the start. -/
theorem DecErrorAtStart.of_withInputs {s t : State} {q : List Input} {k : ErrorKind}
    (h : DecErrorAtStart { s with inputs := q } t k) : DecErrorAtStart s t k :=
  { h with encoder := { h.encoder with } }

/-- Settles O42: of everything DECODE can come to, the parser's answer, the size and the environment's answer leave one. -/
theorem decodeChecksInOrder : Obligations.DecodeChecksInOrder := by
  unfold Obligations.DecodeChecksInOrder
  intro s stream rest issued idle
  rw [step_of_issued issued idle rfl, startCommand]
  refine ⟨fun k failed => ?_, fun d parsed => ?_⟩
  · rw [startDecode_of_error failed]
    exact ⟨_, rfl, ⟨rfl, rfl, rfl, rfl, rfl, rfl, rfl, ⟨rfl, rfl, rfl⟩⟩, rfl⟩
  · rcases startDecode_cases stream { s with inputs := rest } with ⟨k, failed, -⟩ | ⟨d', parsed', outcome⟩
    · rw [parseHeader_take, parsed] at failed; cases failed
    · rw [parseHeader_take, parsed] at parsed'
      cases parsed'
      rcases outcome with ⟨large, ended⟩ | ⟨bounded, refused, ended⟩ | ⟨bounded, granted, -⟩
      · exact ⟨fun _ => ⟨_, rfl, ended.of_withInputs⟩, fun bounded => absurd large (Nat.not_lt.2 bounded)⟩
      · exact ⟨fun large => absurd large (Nat.not_lt.2 bounded), fun _ _ => ⟨_, rfl, ended.of_withInputs⟩⟩
      · exact ⟨fun large => absurd large (Nat.not_lt.2 bounded),
          fun _ refused => absurd (granted.symm.trans refused) (by decide)⟩

/-- Settles O43: the parser answers a descriptor or an error, and the command ends with it. -/
theorem parseDescriptorResult : Obligations.ParseDescriptorResult := by
  unfold Obligations.ParseDescriptorResult
  intro s stream rest issued idle
  rw [step_of_issued issued idle rfl, startCommand]
  refine ⟨_, rfl, ?_⟩
  rcases runParseDescriptor_cases stream { s with inputs := rest } with ⟨k, parsed, failed⟩ | ⟨d, parsed, finished⟩
  · rw [parseHeader_take] at parsed
    rw [failed, parsed]
    exact ⟨⟨rfl, rfl, rfl, rfl, rfl, rfl, ⟨rfl, rfl, rfl⟩⟩, rfl, nofun, fun _ same => by cases same; exact ⟨rfl, rfl⟩⟩
  · rw [parseHeader_take] at parsed
    rw [finished, parsed]
    exact ⟨⟨rfl, rfl, rfl, rfl, rfl, rfl, ⟨rfl, rfl, rfl⟩⟩, rfl, fun _ same => by cases same; exact ⟨rfl, rfl⟩, nofun⟩

end Sys2Proof.Machine
end

section
/-! What the round trip of whole jobs is told with: what a memory holds, what the environment will still accept, the bytes of
a list of pixels, and runs of the core in two parts. -/

namespace Sys2Proof.Machine

/-! Memories that hold a byte sequence from address 0 (R30). -/

/-- R30: the memory holds exactly these bytes. -/
def Memory.Holds (m : Memory) (bs : List Byte) : Prop := ∀ a, m.read a = bs[a]?

theorem Memory.holds_nil : Memory.Holds [] [] := fun _ => rfl

/-- Bytes written behind those that a memory holds. -/
theorem Memory.Holds.append {m : Memory} {bs : List Byte} (h : m.Holds bs) (more : List Byte) :
    (m.writeBytes bs.length more).Holds (bs ++ more) := by
  intro a
  rw [Memory.read_writeBytes]
  split_ifs with inside
  · rw [List.getElem?_append_right inside.1]
  · rw [h a]
    rcases Nat.lt_or_ge a bs.length with before | behind
    · rw [List.getElem?_append_left before]
    · rw [List.getElem?_eq_none behind, List.getElem?_eq_none (by rw [List.length_append]; omega)]

/-! An environment that accepts (R33, R138, R151). -/

/-- The environment's next `n` answers are acceptances. -/
def Env.Willing (v : Env) (n : Nat) : Prop := List.replicate n true <+: v.answers

section
variable {v : Env} {n : Nat}

theorem Env.willing_replicate (answers : v.answers = List.replicate n true) : v.Willing n :=
  ⟨[], by rw [answers, List.append_nil]⟩

theorem Env.Willing.mono {m : Nat} (h : v.Willing n) (fewer : m ≤ n) : v.Willing m := by
  rw [Env.Willing, ← Nat.add_sub_of_le fewer, List.replicate_add] at h
  exact (List.prefix_append _ _).trans h

/-- The next answer, and what is left after it. -/
theorem Env.Willing.answer_and_advance (h : v.Willing (n + 1)) (free : Nat → Bool) :
    v.answer free = true ∧ v.advance.Willing n := by
  obtain ⟨more, answers⟩ := h
  rw [List.replicate_succ, List.cons_append] at answers
  constructor
  · rw [Env.answer, ← answers]
  · exact ⟨more, by rw [Env.advance_answers, ← answers, List.tail_cons]⟩

end

theorem Codec.withRun_zero {c : Codec} (settled : c.run = 0) : { c with run := 0 } = c := by rw [← settled]

/-! The bytes of an image (R31, R34). -/

/-- R31: the buffer of these pixels, one after the other. -/
def imageBytes (channels : Byte) (ps : List Pixel) : List Byte := ps.flatMap (pixelBytes channels)

theorem imageBytes_concat (channels : Byte) (ps : List Pixel) (p : Pixel) :
    imageBytes channels (ps ++ [p]) = imageBytes channels ps ++ pixelBytes channels p := by
  simp [imageBytes]

theorem length_imageBytes {channels : Byte} (three_or_four : channels = 3 ∨ channels = 4) (ps : List Pixel) :
    (imageBytes channels ps).length = ps.length * channels.toNat := by
  induction ps with
  | nil => simp [imageBytes]
  | cons p ps ih =>
    rw [imageBytes, List.flatMap_cons, List.length_append, length_pixelBytes p three_or_four, ← imageBytes, ih,
      List.length_cons, Nat.succ_mul, Nat.add_comm]

/-- R110, R151: the pixel made from some bytes is written as those bytes. -/
theorem pixelBytes_of_pixelOfBytes {channels : Byte} {prev p : Pixel} {bs : List Byte}
    (made : pixelOfBytes channels prev bs = some p) : pixelBytes channels p = bs := by
  unfold pixelOfBytes at made
  split at made
  · split_ifs at made with four
    cases made
    rw [pixelBytes, if_pos four]
  · split_ifs at made with three
    cases made
    rw [pixelBytes, three, if_neg (by decide), if_pos rfl]
  · cases made

/-! Runs of the core. -/

/-- A run in two parts. -/
theorem run_add {M : Host.Core} {s t : M.State} {m : Nat} (first : M.run m s = .next t) (n : Nat) :
    M.run (m + n) s = M.run n t := by
  induction m generalizing s with
  | zero =>
    cases first
    rw [Nat.zero_add]
  | succ m ih =>
    rw [Nat.add_right_comm]
    simp only [Host.Core.run] at first ⊢
    split at first
    · exact ih first
    · cases first
    · cases first

theorem core_run_add {s t : State} {m : Nat} (first : core.run m s = .next t) (n : Nat) :
    core.run (m + n) s = core.run n t := run_add first n

/-- A run of one step more, at its end. -/
theorem core_run_step {s t u : State} {m : Nat} (first : core.run m s = .next t) (last : step t = .next u) :
    core.run (m + 1) s = .next u :=
  (core_run_add first 1).trans (core_run_succ 0 last)

end Sys2Proof.Machine
end

section
/-! The decoder's half of the round trip (R154). `DecoderAt` is a DECODE job between two opcodes, told by the pixels written
so far and the bytes taken so far. `Decodes` is what the encoder must keep true of its output: whatever stream begins with
it, a decoder of that stream comes to agree with the encoder, but for the pixels of a pending run. -/

namespace Sys2Proof.Machine

/-- R121: the stream begins with these bytes and has room for the epilogue behind them. -/
structure Heads (out stream : List Byte) : Prop where
  begins : out <+: stream
  room : out.length + 8 ≤ stream.length

/-- What heads a stream still does so with its last bytes taken off. -/
theorem Heads.shorter {out more stream : List Byte} (h : Heads (out ++ more) stream) : Heads out stream where
  begins := (List.prefix_append out more).trans h.begins
  room := by
    have room := h.room
    rw [List.length_append] at room
    omega

/-- A DECODE job on `stream`: these pixels have been written, the codec registers are `c`, the cursor is `cursor`, and the
environment accepts every pixel left. -/
structure DecoderAt (d : Descriptor) (stream : List Byte) (written : List Pixel) (c : Codec) (cursor : Nat) (v : State) :
    Prop where
  inputs : v.inputs = []
  control : v.dec.control = ⟨.running, .ok⟩
  desc : v.dec.desc = d
  inLen : v.dec.inLen = stream.length
  lastTag : v.dec.lastTagCursor = stream.length - 8
  input : v.strIn = Memory.ofBytes stream
  opos : v.dec.opos = written.length
  output : v.pixOut.Holds (imageBytes d.channels written)
  codec : v.dec.codec = c
  cursor : v.dec.cursor = cursor
  willing : v.dec.env.Willing (d.pixelCount - written.length)

section
variable {d : Descriptor} (three_or_four : d.channels = 3 ∨ d.channels = 4)
variable {stream : List Byte} {written : List Pixel} {c : Codec} {cursor : Nat} {v : State}
variable (h : DecoderAt d stream written c cursor v) (left : written.length < d.pixelCount)

include h in
/-- With no input pending the job makes the machine's step. -/
theorem DecoderAt.step_eq : step v = decTurn v := by
  simp only [step, h.inputs, defaultTurn, h.control, if_true]

include h left in
theorem DecoderAt.step_of_left : step v = decodePixel v := by
  rw [h.step_eq, decTurn_of_pixel (by rw [h.control]) (by rw [h.opos, h.desc]; exact left)]

include h in
/-- The codec registers and the cursor as an opcode or a replication leaves them. -/
theorem DecoderAt.update (c' : Codec) (cursor' : Nat) :
    DecoderAt d stream written c' cursor' { v with dec := { v.dec with codec := c', cursor := cursor' } } :=
  { h with codec := rfl, cursor := rfl }

include three_or_four h left in
/-- R151: `prev` is written. -/
theorem DecoderAt.writePixel : DecoderAt d stream (written ++ [c.prev]) c cursor (writePixel v) := by
  have willing := h.willing
  rw [show d.pixelCount - written.length = d.pixelCount - (written.length + 1) + 1 by omega] at willing
  obtain ⟨accepted, further⟩ := willing.answer_and_advance Config.decAnswer
  have output := h.output.append (pixelBytes d.channels c.prev)
  rw [← imageBytes_concat, length_imageBytes three_or_four] at output
  rw [writePixel_accepted accepted]
  refine { h with opos := ?_, output := ?_, willing := ?_ }
  · rw [h.opos, List.length_append]; rfl
  · rw [h.desc, h.opos, h.codec]; exact output
  · rw [List.length_append]; exact further

include three_or_four h left in
/-- R141: a step of a pending run. -/
theorem DecoderAt.replicate (pending : 0 < c.run) :
    ∃ t, step v = .next t ∧ DecoderAt d stream (written ++ [c.prev]) { c with run := c.run - 1 } cursor t := by
  have counted := h.update { c with run := c.run - 1 } cursor
  refine ⟨_, ?_, counted.writePixel three_or_four left⟩
  rw [h.step_of_left left, decodePixel, h.codec, if_pos pending, replicateStep, h.codec, ← h.cursor]

include three_or_four left in
/-- R142, R143: the opcode whose bytes stand at the cursor is executed. -/
theorem DecoderAt.execute {out : List Byte} {i : Instr} (h : DecoderAt d stream written c out.length v) (settled : c.run = 0)
    (wf : i.wellFormed = true) (stored : Heads (out ++ encode i) stream) :
    ∃ t, step v = .next t ∧
      DecoderAt d stream (written ++ [(codecAfter c i).prev]) (codecAfter c i) (out ++ encode i).length t := by
  have length : (out ++ encode i).length = out.length + i.length := by rw [List.length_append, encode_length]
  obtain ⟨begins, room⟩ := stored
  have more : v.dec.cursor < v.dec.lastTagCursor := by
    have := i.length_pos
    rw [h.cursor, h.lastTag]
    omega
  have bytes : ∀ k, k < i.length → v.strIn.read (v.dec.cursor + k) = (encode i)[k]? := by
    intro k inOpcode
    obtain ⟨rest, rfl⟩ := begins
    rw [h.input, Memory.read_ofBytes, h.cursor, List.append_assoc, List.getElem?_append_right (Nat.le_add_right _ _),
      Nat.add_sub_cancel_left, List.getElem?_append_left (by rwa [encode_length])]
  obtain ⟨rest, fetched⟩ := fetchReadsStoredOpcode v i wf (by rw [h.cursor, h.inLen]; omega) bytes
  have executed := h.update (codecAfter c i) (out ++ encode i).length
  refine ⟨_, ?_, executed.writePixel three_or_four left⟩
  rw [h.step_of_left left, decodePixel, h.codec, settled, if_neg (Nat.lt_irrefl 0), if_pos more, fetchStep, fetched]
  dsimp only
  rw [exec_eq, beforeWrite, Dec.executed, h.codec, h.cursor, length]

end

/-- R141: the replications of a run. -/
theorem DecoderAt.replicate_all {d : Descriptor} (three_or_four : d.channels = 3 ∨ d.channels = 4) {stream : List Byte}
    {c : Codec} {cursor : Nat} {n : Nat} {written : List Pixel} {v : State}
    (h : DecoderAt d stream written { c with run := n } cursor v) (fits : written.length + n ≤ d.pixelCount) :
    ∃ t, core.run n v = .next t ∧ DecoderAt d stream (written ++ List.replicate n c.prev) { c with run := 0 } cursor t := by
  induction n generalizing written v with
  | zero => exact ⟨v, rfl, by rwa [List.replicate_zero, List.append_nil]⟩
  | succ n ih =>
    obtain ⟨u, first, hu⟩ := h.replicate three_or_four (by omega) (Nat.succ_pos n)
    obtain ⟨t, others, ht⟩ := ih hu (by rw [List.length_append, List.length_singleton]; omega)
    refine ⟨t, (core_run_succ n first).trans others, ?_⟩
    rwa [List.append_assoc, List.singleton_append, ← List.replicate_succ] at ht

/-- A DECODE command for `stream` comes next, and the environment grants the buffer and accepts every pixel. -/
structure DecodeIssued (d : Descriptor) (stream : List Byte) (u : State) : Prop where
  inputs : Issued u (.decode stream false) []
  idle : u.dec.control.phase ≠ .running
  willing : u.dec.env.Willing (d.pixelCount + 1)

/-- R154: an encoder that has taken the pixels `seen`, has emitted `out` and holds `c` is followed by the decoder of every
stream that begins with `out` and has room for the epilogue: its job reaches the same `prev` and index, with all of `seen`
written but the pixels of the pending run, which are copies of `prev`. -/
def Decodes (d : Descriptor) (c : Codec) (seen : List Pixel) (out : List Byte) : Prop :=
  ∀ (stream : List Byte) (u : State), Heads out stream → DecodeIssued d stream u →
    ∃ written v, seen = written ++ List.replicate c.run c.prev ∧ core.run (written.length + 1) u = .next v ∧
      DecoderAt d stream written { c with run := 0 } out.length v

section
variable {d : Descriptor} {c : Codec} {seen : List Pixel} {out : List Byte}

/-- R86, R139: the header alone starts the job. -/
theorem decodes_initial (legal : d.Legal) : Decodes d Codec.initial [] (emitHeader d) := by
  rintro stream u ⟨⟨body, rfl⟩, -⟩ issued
  obtain ⟨granted, willing⟩ := issued.willing.answer_and_advance Config.decAnswer
  have parsed := parseHeader_emitHeader_append (d.legal_iff.1 legal).1 body
  rw [← parseHeader_take] at parsed
  refine ⟨[], decodeStarted d (emitHeader d ++ body) { u with inputs := [] }, rfl, core_run_succ 0 ?_,
    ⟨rfl, rfl, rfl, rfl, rfl, rfl, rfl, Memory.holds_nil, rfl, rfl, willing⟩⟩
  rw [step_of_issued issued.inputs issued.idle rfl]
  exact congrArg Host.Outcome.next (startDecode_accepted parsed legal.bounded granted)

variable (h : Decodes d c seen out)
include h

/-- R111: a pixel that is counted waits for its RUN. -/
theorem Decodes.count : Decodes d { c with run := c.run + 1 } (seen ++ [c.prev]) out := by
  intro stream u heads issued
  obtain ⟨written, v, rfl, reached, hv⟩ := h stream u heads issued
  exact ⟨written, v, by rw [List.append_assoc, List.replicate_succ'], reached, hv⟩

variable (three_or_four : d.channels = 3 ∨ d.channels = 4)
include three_or_four

/-- R112, R149, R141: the RUN of the pending pixels is executed and replicated. -/
theorem Decodes.flush (wf : (Instr.run c.run).wellFormed = true) (fits : seen.length ≤ d.pixelCount) :
    Decodes d { c with run := 0 } seen (out ++ encode (.run c.run)) := by
  intro stream u heads issued
  obtain ⟨written, v, pending, reached, hv⟩ := h stream u heads.shorter issued
  obtain ⟨one, -⟩ := (wellFormed_run_iff c.run).1 wf
  have length : seen.length = written.length + c.run := by rw [pending, List.length_append, List.length_replicate]
  obtain ⟨w, fetched, hw⟩ := hv.execute three_or_four (by omega) rfl wf heads
  obtain ⟨t, replicated, ht⟩ := hw.replicate_all three_or_four (c := c)
    (by rw [List.length_append, List.length_singleton]; omega)
  have all : written ++ [c.prev] ++ List.replicate (c.run - 1) c.prev = seen := by
    rw [pending, List.append_assoc, List.singleton_append, ← List.replicate_succ, Nat.sub_add_cancel one]
  refine ⟨seen, t, (List.append_nil _).symm, ?_, all ▸ ht⟩
  rw [length, show written.length + c.run + 1 = written.length + 1 + 1 + (c.run - 1) by omega,
    core_run_add (core_run_step reached fetched), replicated]

/-- R154: the opcode chosen for a pixel makes that pixel. -/
theorem Decodes.opcode (settled : c.run = 0) (left : seen.length < d.pixelCount) (cur : Pixel) :
    Decodes d (c.materialize cur) (seen ++ [cur]) (out ++ encode (chosen c cur)) := by
  intro stream u heads issued
  obtain ⟨written, v, pending, reached, hv⟩ := h stream u heads.shorter issued
  rw [settled, List.replicate_zero, List.append_nil] at pending
  subst pending
  rw [Codec.withRun_zero settled] at hv
  obtain ⟨t, executed, ht⟩ := hv.execute three_or_four left settled (chosen_wellFormed c cur) heads
  rw [codecAfter_chosen rfl rfl] at ht
  refine ⟨seen ++ [cur], t, ?_, ?_, (Codec.withRun_zero (c := c.materialize cur) settled).symm ▸ ht⟩
  · rw [Codec.materialize_run, settled, List.replicate_zero, List.append_nil]
  · rw [List.length_append]
    exact core_run_step reached executed

end

end Sys2Proof.Machine
end

section
/-! The encoder's half of the round trip (R122, R124): every step keeps that its output so far decodes to the pixels taken so
far, and at the end these are all. -/

namespace Sys2Proof.Machine

/-- An ENCODE job of `pixels`: the pixels `seen` have been taken and `out` has been emitted, which decodes to them; the sink
accepts the two appends of every pixel left and the epilogue. -/
structure EncoderAt (d : Descriptor) (pixels : List Byte) (seen : List Pixel) (out : List Byte) (s : State) : Prop where
  inputs : s.inputs = []
  idle : s.dec.control.phase ≠ .running
  inv : EncInv s
  control : s.enc.control = ⟨.running, .ok⟩
  desc : s.enc.desc = d
  input : s.pixIn = Memory.ofBytes pixels
  pixLen : s.enc.pixLen = pixels.length
  pos : s.enc.pos = seen.length
  image : imageBytes d.channels seen = pixels.take (seen.length * d.channels.toNat)
  outLen : s.enc.outLen = out.length
  output : s.strOut.Holds out
  willing : s.enc.env.Willing (2 * (d.pixelCount - seen.length) + 1)
  decodes : Decodes d s.enc.codec seen out

/-- R109: the state after a step that has appended these bytes and left these codec registers. -/
def afterPixel (bs : List Byte) (c : Codec) (env : Env) (s : State) : State :=
  { s with
    strOut := s.strOut.writeBytes s.enc.outLen bs
    enc := { s.enc with codec := c, pos := s.enc.pos + 1, outLen := s.enc.outLen + bs.length, env := env } }

section
variable {d : Descriptor} {pixels : List Byte} {seen : List Pixel} {out : List Byte} {s : State}
variable (h : EncoderAt d pixels seen out s)
include h

theorem EncoderAt.job : EncJob s := h.inv.job (by rw [h.control])

theorem EncoderAt.moves : EncMoves s s := .inl ⟨h.inputs, h.idle, rfl⟩

/-- R110: the pixel read is the next of the buffer. -/
theorem EncoderAt.read (left : seen.length < d.pixelCount) :
    ∃ cur, readPixel s = some cur ∧
      imageBytes d.channels (seen ++ [cur]) = pixels.take ((seen.length + 1) * d.channels.toNat) := by
  obtain ⟨cur, read⟩ := h.job.readPixel_some (by rw [h.pos, h.desc]; exact left)
  refine ⟨cur, read, ?_⟩
  have inside : seen.length * d.channels.toNat + d.channels.toNat ≤ pixels.length := by
    rw [← Nat.succ_mul, ← h.pixLen, h.job.pixLen, h.desc]
    exact Nat.mul_le_mul_right _ left
  have count : ((pixels.drop (seen.length * d.channels.toNat)).take d.channels.toNat).length = d.channels.toNat := by
    rw [List.length_take, List.length_drop]; omega
  rw [readPixel_of_stored (bs := (pixels.drop (seen.length * d.channels.toNat)).take d.channels.toNat), h.desc] at read
  · rw [imageBytes_concat, pixelBytes_of_pixelOfBytes read, h.image, Nat.succ_mul, List.take_add]
  · rw [h.desc, count]
  · rw [count, pixelAddress, h.pos, h.desc, h.pixLen]; exact inside
  · intro k inPixel
    rw [count] at inPixel
    rw [h.input, Memory.read_ofBytes, pixelAddress, h.pos, h.desc, List.getElem?_take_of_lt inPixel,
      List.getElem?_drop]

/-- R109 to R120: with a sink that accepts, the step of a pixel appends bytes that decode to it. -/
theorem EncoderAt.encodePixel_eq (left : seen.length < d.pixelCount) (cur : Pixel) :
    ∃ bs c env, encodePixel cur s = afterPixel bs c env s ∧ env.Willing (2 * (d.pixelCount - (seen.length + 1)) + 1) ∧
      Decodes d c (seen ++ [cur]) (out ++ bs) := by
  have three_or_four : d.channels = 3 ∨ d.channels = 4 := h.desc ▸ h.job.legal.channels
  have short : s.enc.codec.run < 62 := h.job.run
  have willing := h.willing
  rw [show 2 * (d.pixelCount - seen.length) + 1 = 2 * (d.pixelCount - (seen.length + 1)) + 1 + 1 + 1 by omega] at willing
  obtain ⟨accepted, once⟩ := willing.answer_and_advance Config.encAnswer
  obtain ⟨acceptedNext, twice⟩ := once.answer_and_advance Config.encAnswer
  by_cases same : cur = s.enc.codec.prev
  · subst same
    rw [encodePixel, if_pos rfl]
    have counted := h.decodes.count
    rcases runStep_cases s with ⟨-, -, counts⟩ | flushes
    · refine ⟨[], _, s.enc.env, counts, willing.mono (by omega), ?_⟩
      rw [List.append_nil]; exact counted
    · refine ⟨encode (.run (s.enc.codec.run + 1)), _, s.enc.env.advance, ?_, once.mono (by omega),
        counted.flush three_or_four ((wellFormed_run_iff _).2 (by dsimp only; omega)) ?_⟩
      · rw [flushes, emitRun_accepted (by exact accepted)]; rfl
      · rw [List.length_append]; exact left
  · rw [encodePixel, if_neg same]
    rcases Nat.eq_zero_or_pos s.enc.codec.run with settled | pending
    · refine ⟨encode (chosen s.enc.codec cur), _, s.enc.env.advance, ?_, once.mono (by omega),
        h.decodes.opcode three_or_four settled left cur⟩
      rw [flushRun_of_zero settled, Progress.andThen_go, opcodeStep_accepted cur accepted]; rfl
    · have flushed := h.decodes.flush three_or_four ((wellFormed_run_iff _).2 (by omega)) left.le
      refine ⟨encode (.run s.enc.codec.run) ++ encode (chosen s.enc.codec cur), _, s.enc.env.advance.advance, ?_, twice,
        (List.append_assoc _ _ _) ▸ flushed.opcode three_or_four rfl left cur⟩
      rw [flushRun_of_pos pending, emitRun_accepted accepted, Progress.andThen_go,
        opcodeStep_accepted cur (by exact acceptedNext), afterPixel, Memory.writeBytes_append, List.length_append, ← Nat.add_assoc]
      rfl

/-- One pixel of the job. -/
theorem EncoderAt.step_pixel (left : seen.length < d.pixelCount) :
    ∃ t cur more, step s = .next t ∧ EncoderAt d pixels (seen ++ [cur]) (out ++ more) t := by
  obtain ⟨cur, read, image⟩ := h.read left
  obtain ⟨bs, c, env, encoded, willing, decodes⟩ := h.encodePixel_eq left cur
  have left' : s.enc.pos < s.enc.desc.pixelCount := by rw [h.pos, h.desc]; exact left
  have inv := h.inv.encodePixel h.control left' read
  refine ⟨encodePixel cur s, cur, bs, ?_, ?_⟩
  · rw [step_of_encMoves h.moves, encTurn_of_pixel (by rw [h.control]) left' read]
  · rw [encoded] at inv ⊢
    have length : (seen ++ [cur]).length = seen.length + 1 := List.length_append
    exact { h with
      inv := inv
      pos := by rw [length, ← h.pos]; rfl
      image := by rw [image, length]
      outLen := by rw [List.length_append, ← h.outLen]; rfl
      output := by
        have := h.output.append bs
        rwa [← h.outLen] at this
      willing := by rw [length]; exact willing
      decodes := decodes }

end

/-- The rest of the job up to its last pixel. -/
theorem EncoderAt.run_left {d : Descriptor} {pixels : List Byte} {n : Nat} {seen : List Pixel} {out : List Byte} {s : State}
    (h : EncoderAt d pixels seen out s) (left : seen.length + n = d.pixelCount) :
    ∃ t seen' out', core.run n s = .next t ∧ EncoderAt d pixels seen' out' t ∧ seen'.length = d.pixelCount := by
  induction n generalizing seen out s with
  | zero => exact ⟨s, seen, out, rfl, h, left⟩
  | succ n ih =>
    obtain ⟨u, cur, more, first, hu⟩ := h.step_pixel (by omega)
    obtain ⟨t, seen', out', others, ht, all⟩ := ih hu (by rw [List.length_append, List.length_singleton]; omega)
    exact ⟨t, seen', out', (core_run_succ n first).trans others, ht, all⟩

/-- R107, R108: the job at its start. -/
theorem encoderAt_encodeStarted {d : Descriptor} {pixels : List Byte} {s : State} (legal : d.Legal)
    (size : pixels.length = d.pixelCount * d.channels.toNat) (idle : s.dec.control.phase ≠ .running)
    (willing : s.enc.env.Willing (2 * d.pixelCount + 2)) :
    EncoderAt d pixels [] (emitHeader d) (encodeStarted d pixels { s with inputs := [] }) where
  inputs := rfl
  idle := idle
  inv := EncBase.running
    ⟨Memory.wf_ofBytes pixels, Memory.wf_writeBytes _ _ _ rfl, Codec.disciplined_initial, Nat.zero_le _⟩ rfl
    (encJob_encodeStarted _ legal size)
  control := rfl
  desc := rfl
  input := rfl
  pixLen := rfl
  pos := rfl
  image := by rw [List.length_nil, Nat.zero_mul]; rfl
  outLen := rfl
  output := Memory.holds_nil.append (emitHeader d)
  willing := (willing.answer_and_advance Config.encAnswer).2
  decodes := decodes_initial legal

/-- R121: after the last pixel the epilogue ends the job. -/
theorem EncoderAt.step_last {d : Descriptor} {pixels : List Byte} {seen : List Pixel} {out : List Byte} {s : State}
    (h : EncoderAt d pixels seen out s) (all : seen.length = d.pixelCount) :
    ∃ t, step s = .next t ∧ t.enc.control = ⟨.done, .ok⟩ ∧ t.enc.outLen = (out ++ epilogue).length ∧
      t.strOut.Holds (out ++ epilogue) := by
  have last : s.enc.desc.pixelCount ≤ s.enc.pos := by rw [h.pos, h.desc, all]
  obtain ⟨accepted, -⟩ := (h.willing.mono (Nat.le_add_left 1 _)).answer_and_advance Config.encAnswer
  have output := h.output.append epilogue
  rw [← h.outLen] at output
  refine ⟨finishEncode s, ?_, ?_⟩
  · rw [step_of_encMoves h.moves, encTurn_of_last (by rw [h.control]) last]
  · rw [finishEncode_accepted accepted]
    refine ⟨rfl, ?_, output⟩
    rw [List.length_append, ← h.outLen]; rfl

/-- R124, R154: with all pixels taken, the decoder of the finished stream writes them all. -/
theorem EncoderAt.decoded {d : Descriptor} {pixels : List Byte} {seen : List Pixel} {out : List Byte} {s : State}
    (h : EncoderAt d pixels seen out s) (all : seen.length = d.pixelCount) {u : State}
    (issued : DecodeIssued d (out ++ epilogue) u) :
    ∃ v, core.run (d.pixelCount + 2) u = .next v ∧ v.dec.control = ⟨.done, .ok⟩ ∧ v.dec.desc = d ∧ v.pixOut.Holds pixels := by
  have settled : s.enc.codec.run = 0 := h.job.flushed (by rw [h.pos, h.desc, all])
  have whole : imageBytes d.channels seen = pixels := by
    rw [h.image, all, List.take_of_length_le]
    rw [← h.pixLen, h.job.pixLen, h.desc]
  obtain ⟨written, v, pending, reached, hv⟩ :=
    h.decodes _ u ⟨List.prefix_append out epilogue, (List.length_append (bs := epilogue)).ge⟩ issued
  rw [settled, List.replicate_zero, List.append_nil] at pending
  subst pending
  refine ⟨_, core_run_step (m := d.pixelCount + 1) (all ▸ reached) (t := v) (u := finishDecode v) ?_, rfl, hv.desc,
    whole ▸ hv.output⟩
  have full : ¬ v.dec.opos < v.dec.desc.pixelCount := by rw [hv.opos, hv.desc, all]; exact Nat.lt_irrefl _
  simp only [hv.step_eq, decTurn, hv.control, full, if_true, if_false]

/-- Settles O58: the encoder keeps at every pixel that its output decodes to the pixels taken, and its end leaves none
pending. -/
theorem encodeThenDecodeRestoresImage : Obligations.EncodeThenDecodeRestoresImage := by
  unfold Obligations.EncodeThenDecodeRestoresImage
  intro s d pixels legal size issued encIdle decIdle answers
  have willing := Env.willing_replicate answers
  have started : step s = .next (encodeStarted d pixels { s with inputs := [] }) := by
    rw [step_of_issued issued encIdle rfl]
    exact startEncode_accepted legal size (willing.answer_and_advance Config.encAnswer).1
  obtain ⟨last, seen, out, encoded, h, all⟩ :=
    (encoderAt_encodeStarted legal size decIdle willing).run_left (Nat.zero_add _)
  obtain ⟨t, ended, control, outLen, output⟩ := h.step_last all
  refine ⟨t, out ++ epilogue, ?_, control, outLen.symm, output, fun u issued idle answers => ?_⟩
  · exact (core_run_succ _ started).trans (core_run_step encoded ended)
  · exact h.decoded all ⟨issued, idle, Env.willing_replicate answers⟩

end Sys2Proof.Machine
end

section
/-! The index table (R97 to R101). An agent's table is changed by two operations only: the initialisation of a job and the
insertion of one pixel at its own hash. So every step leaves a table as it was, clears it or makes one insertion, and each of
the three keeps the discipline. -/

namespace Sys2Proof.Machine

/-- R98, R107, R139: what a step may make of a table. -/
inductive Codec.IndexStep (c c' : Codec) : Prop
  | kept (same : c'.index = c.index)
  | cleared (initial : c'.index = Codec.initial.index)
  | inserted (p : Pixel) (written : c'.index = (c.insert p).index)

/-- The discipline speaks of the table only. -/
theorem Codec.Disciplined.of_index_eq {c c' : Codec} (h : c.Disciplined) (same : c'.index = c.index) : c'.Disciplined := by
  intro i
  rw [Codec.entry_congr same]
  exact h i

/-- R101: none of the three breaks the discipline. -/
theorem Codec.IndexStep.disciplined {c c' : Codec} (move : c.IndexStep c') (h : c.Disciplined) : c'.Disciplined := by
  cases move with
  | kept same => exact h.of_index_eq same
  | cleared initial => exact Codec.disciplined_initial.of_index_eq initial
  | inserted p written => exact (h.insert p).of_index_eq written

/-- What a step makes of both tables. -/
structure IndexTablesStep (s t : State) : Prop where
  enc : s.enc.codec.IndexStep t.enc.codec
  dec : s.dec.codec.IndexStep t.dec.codec

section
variable {s t : State}

theorem IndexTablesStep.of_enc (move : s.enc.codec.IndexStep t.enc.codec) (same : DecUntouched s t) : IndexTablesStep s t :=
  ⟨move, .kept (by rw [same.dec])⟩

theorem IndexTablesStep.of_dec (move : s.dec.codec.IndexStep t.dec.codec) (same : EncUntouched s t) : IndexTablesStep s t :=
  ⟨.kept (by rw [same.enc]), move⟩

/-! The encoder's table (R100, R114). -/

/-- R111, R112: emitting a RUN leaves the table, whether the sink accepts it or not. -/
theorem emitRun_index (s : State) :
    (∃ t, emitRun s = .go t ∧ t.enc.codec.index = s.enc.codec.index) ∨
    ∃ t, emitRun s = .stop t ∧ t.enc.codec.index = s.enc.codec.index := by
  cases accepted : s.enc.accepts
  · exact .inr ⟨_, emitRun_refused accepted, rfl⟩
  · exact .inl ⟨_, emitRun_accepted accepted, rfl⟩

theorem flushRun_index (s : State) :
    (∃ t, flushRun s = .go t ∧ t.enc.codec.index = s.enc.codec.index) ∨
    ∃ t, flushRun s = .stop t ∧ t.enc.codec.index = s.enc.codec.index := by
  rcases Nat.eq_zero_or_pos s.enc.codec.run with settled | pending
  · exact .inl ⟨s, flushRun_of_zero settled, rfl⟩
  · rw [flushRun_of_pos pending]
    exact emitRun_index s

/-- R111: the step of a pixel equal to `prev` leaves the table. -/
theorem runStep_index (s : State) : (runStep s).enc.codec.index = s.enc.codec.index := by
  rcases runStep_cases s with ⟨-, -, counts⟩ | flushes
  · rw [counts]; rfl
  · rw [flushes]
    rcases emitRun_index (setRun (s.enc.codec.run + 1) s) with ⟨u, emitted, same⟩ | ⟨u, refused, same⟩
    · rw [emitted]; exact same
    · rw [refused]; exact same

/-- R114: the step of a pixel that differs from `prev` inserts it; on a hit the insertion changes nothing. -/
theorem opcodeStep_index (cur : Pixel) (s : State) :
    (opcodeStep cur s).enc.codec.index = (s.enc.codec.insert cur).index := by
  cases accepted : s.enc.accepts
  · rw [opcodeStep_refused cur accepted]
  · rw [opcodeStep_accepted cur accepted]

theorem encodePixel_indexStep (cur : Pixel) (s : State) : s.enc.codec.IndexStep (encodePixel cur s).enc.codec := by
  unfold encodePixel
  split_ifs with same
  · exact .kept (runStep_index s)
  · rcases flushRun_index s with ⟨u, flushed, index⟩ | ⟨u, refused, index⟩
    · rw [flushed]
      exact .inserted cur ((opcodeStep_index cur u).trans (Codec.insert_index_congr index cur))
    · rw [refused]
      exact .kept index

/-- R121: the end of a job leaves the codec registers. -/
theorem finishEncode_codec (s : State) : (finishEncode s).enc.codec = s.enc.codec := by
  cases accepted : s.enc.accepts
  · rw [finishEncode_refused accepted]
  · rw [finishEncode_accepted accepted]

theorem encTurn_indexStep (moves : encTurn s = .next t) : s.enc.codec.IndexStep t.enc.codec := by
  unfold encTurn at moves
  split_ifs at moves
  · split at moves
    · obtain rfl := Host.Outcome.next.inj moves
      exact encodePixel_indexStep _ s
    · cases moves
  · obtain rfl := Host.Outcome.next.inj moves
    exact .kept (by rw [finishEncode_codec])
  · obtain rfl := Host.Outcome.next.inj moves
    exact .kept rfl

/-- R106 to R108: a job that passes the checks starts with the initial table, and one that does not leaves the old one. -/
theorem startEncode_indexStep {d : Descriptor} {pixels : List Byte} (moves : startEncode d pixels s = .next t) :
    s.enc.codec.IndexStep t.enc.codec := by
  rcases startEncode_cases d pixels s with ⟨k, -, failed⟩ | refused | ⟨-, ⟨-, failed⟩ | ⟨-, started⟩⟩
  · obtain rfl := Host.Outcome.next.inj (failed.symm.trans moves)
    exact .kept rfl
  · rw [refused] at moves; cases moves
  · obtain rfl := Host.Outcome.next.inj (failed.symm.trans moves)
    exact .cleared rfl
  · obtain rfl := Host.Outcome.next.inj (started.symm.trans moves)
    exact .cleared rfl

/-! The decoder's table (R99, R150). -/

/-- R149, R150: RUN leaves the table, every other opcode inserts the pixel it has produced. -/
theorem codecAfter_indexStep (c : Codec) (i : Instr) : c.IndexStep (codecAfter c i) := by
  cases i
  case run => exact .kept rfl
  all_goals exact .inserted _ rfl

/-- The codec registers after an opcode, whether the output write is accepted or not. -/
theorem writePixel_beforeWrite_codec (i : Instr) (s : State) :
    (writePixel (beforeWrite i s)).dec.codec = codecAfter s.dec.codec i :=
  writePixel_codec (beforeWrite i s)

theorem decodePixel_indexStep (moves : decodePixel s = .next t) : s.dec.codec.IndexStep t.dec.codec := by
  rcases decodePixel_cases s with ⟨-, replicated⟩ | ⟨-, -, exhausted⟩ |
    ⟨-, -, ⟨i, rest, -, executed⟩ | ⟨e, -, faulted⟩⟩
  · obtain rfl := Host.Outcome.next.inj (replicated.symm.trans moves)
    exact .kept (by rw [replicateStep, writePixel_codec])
  · obtain rfl := Host.Outcome.next.inj (exhausted.symm.trans moves)
    exact .kept (by rw [writePixel_codec])
  · obtain rfl := Host.Outcome.next.inj (executed.symm.trans moves)
    rw [writePixel_beforeWrite_codec]
    exact codecAfter_indexStep _ i
  · rw [faulted] at moves; cases moves

theorem decTurn_indexStep (moves : decTurn s = .next t) : s.dec.codec.IndexStep t.dec.codec := by
  unfold decTurn at moves
  split_ifs at moves
  · exact decodePixel_indexStep moves
  · obtain rfl := Host.Outcome.next.inj moves
    exact .kept rfl
  · obtain rfl := Host.Outcome.next.inj moves
    exact .kept rfl

/-- R166: IS_QOI writes no codec state. -/
theorem runIsQoi_codec (stream : List Byte) (s : State) : (runIsQoi stream s).dec.codec = s.dec.codec := by
  rw [runIsQoi_eq]

/-- R167: PARSE_DESCRIPTOR writes no codec state. -/
theorem runParseDescriptor_codec (stream : List Byte) (s : State) :
    (runParseDescriptor stream s).dec.codec = s.dec.codec := by
  rcases runParseDescriptor_cases stream s with ⟨k, -, failed⟩ | ⟨d, -, finished⟩
  · rw [failed]; rfl
  · rw [finished]; rfl

/-- R136 to R139: an error at the start of a job leaves the table, and a job that starts has the initial one. -/
theorem startDecode_indexStep (stream : List Byte) (s : State) :
    s.dec.codec.IndexStep (startDecode stream s).dec.codec := by
  rcases startDecode_cases stream s with ⟨k, -, failed⟩ | ⟨d, -, ⟨-, failed⟩ | ⟨-, -, failed⟩ | ⟨-, -, started⟩⟩
  · exact .kept (by rw [failed.codec])
  · exact .kept (by rw [failed.codec])
  · exact .kept (by rw [failed.codec])
  · rw [started]; exact .cleared rfl

/-! Both tables, for each input of the machine. -/

theorem agentTurn_indexTables {a : Agent} (moves : agentTurn a s = .next t) : IndexTablesStep s t := by
  cases a with
  | enc => exact .of_enc (encTurn_indexStep moves) (encTurn_decUntouched moves)
  | dec => exact .of_dec (decTurn_indexStep moves) (decTurn_encUntouched moves)

theorem defaultTurn_indexTables (moves : defaultTurn s = .next t) : IndexTablesStep s t := by
  unfold defaultTurn at moves
  split_ifs at moves
  · exact agentTurn_indexTables (a := .dec) moves
  · exact agentTurn_indexTables (a := .enc) moves

theorem startCommand_indexTables {c : Command} (moves : startCommand c s = .next t) : IndexTablesStep s t := by
  cases c with
  | isQoi stream =>
    obtain rfl := Host.Outcome.next.inj moves
    exact .of_dec (.kept (by rw [runIsQoi_codec])) (runIsQoi_eq stream s ▸ ⟨rfl, rfl, rfl⟩)
  | parseDescriptor stream =>
    obtain rfl := Host.Outcome.next.inj moves
    exact .of_dec (.kept (by rw [runParseDescriptor_codec])) (runParseDescriptor_encUntouched stream s)
  | encode d pixels overlap => exact .of_enc (startEncode_indexStep moves) (startEncode_decUntouched moves)
  | decode stream overlap =>
    obtain rfl := Host.Outcome.next.inj moves
    exact .of_dec (startDecode_indexStep stream s) (startDecode_encUntouched stream s)

theorem issueCommand_indexTables {c : Command} (moves : issueCommand c s = .next t) : IndexTablesStep s t := by
  unfold issueCommand at moves
  split_ifs at moves
  exact startCommand_indexTables moves

/-- R206: the host writes input buffers, never a table. -/
theorem hostWrite_indexTables {a : Agent} {addr : Nat} {byte : Byte} (moves : hostWrite a addr byte s = .next t) :
    IndexTablesStep s t := by
  unfold hostWrite at moves
  split_ifs at moves
  cases a
  all_goals
    obtain rfl := Host.Outcome.next.inj moves
    exact ⟨.kept rfl, .kept rfl⟩

/-- R207: collecting results writes the control registers only. -/
theorem collect_indexTables {a : Agent} (moves : collect a s = .next t) : IndexTablesStep s t := by
  unfold collect at moves
  split_ifs at moves
  cases a
  all_goals
    obtain rfl := Host.Outcome.next.inj moves
    exact ⟨.kept rfl, .kept rfl⟩

theorem takeInput_indexTables {x : Input} (moves : takeInput x s = .next t) : IndexTablesStep s t := by
  cases x with
  | command c => exact issueCommand_indexTables moves
  | hostWrite a addr byte => exact hostWrite_indexTables moves
  | collect a => exact collect_indexTables moves
  | turn a => exact agentTurn_indexTables moves

/-- R98: a step makes at most one insertion into each table, or starts a job with the initial one. -/
theorem step_indexTables (moves : step s = .next t) : IndexTablesStep s t := by
  rcases inputs : s.inputs with _ | ⟨x, rest⟩
  · simp only [step, inputs] at moves
    exact defaultTurn_indexTables moves
  · rw [step_of_input inputs] at moves
    obtain ⟨enc, dec⟩ := takeInput_indexTables moves
    exact ⟨enc, dec⟩

end

/-- Settles O52: a step keeps, clears or inserts into each table, and each of these keeps the discipline. -/
theorem indexDisciplineIsKept : Obligations.IndexDisciplineIsKept := by
  unfold Obligations.IndexDisciplineIsKept
  refine ⟨Codec.disciplined_initial, fun s t moves => ?_⟩
  obtain ⟨enc, dec⟩ := step_indexTables moves
  exact ⟨enc.disciplined, dec.disciplined⟩

/-- R73, R99: the initial entry's pixel has hash 0, whichever entry it stands in. -/
theorem pixelHash_clear : pixelHash Pixel.clear = 0 := rfl

/-- R146, R150: INDEX makes the entry's pixel `prev` and inserts it, whether the output write is accepted or not. -/
theorem exec_index_codec (h : Fin 64) (s : State) :
    ∃ t, exec (.index h) s = .next t ∧ t.dec.codec = s.dec.codec.materialize (s.dec.codec.entry h) :=
  ⟨_, exec_eq (.index h) s, writePixel_beforeWrite_codec (.index h) s⟩

/-- Settles O14: the pixel read is inserted at its own hash, and the hash of (0,0,0,0) is 0 whatever `h` is. -/
theorem indexOfUnwrittenEntryClearsEntryZero : Obligations.IndexOfUnwrittenEntryClearsEntryZero := by
  unfold Obligations.IndexOfUnwrittenEntryClearsEntryZero
  intro s h unwritten
  obtain ⟨t, executed, codec⟩ := exec_index_codec h s
  rw [show s.dec.codec.entry h = Pixel.clear from unwritten] at codec
  have entries (i : Fin 64) : t.dec.codec.entry i = if i = 0 then Pixel.clear else s.dec.codec.entry i := by
    rw [codec, Codec.entry_materialize, Codec.entry_insert, pixelHash_clear]
  refine ⟨t, executed, ?_, entries 0, fun i other => ?_⟩
  · rw [codec]; rfl
  · rw [entries, if_neg other]

end Sys2Proof.Machine
end

section
/-! The encoder's step of one pixel and the end of its job (R109 to R123). With a sink that accepts, every step of a pixel is
`afterPixel`: it appends some bytes, leaves some codec registers and counts the pixel. -/

namespace Sys2Proof.Machine

section
variable (bs : List Byte) (c : Codec) (env : Env) (s : State)

theorem afterPixel_appended : Appended s (afterPixel bs c env s) bs := .of_written rfl rfl

theorem afterPixel_inputsKept : EncInputsKept s (afterPixel bs c env s) := ⟨rfl, rfl, rfl, rfl, ⟨rfl, rfl, rfl⟩⟩

end

/-! A pixel equal to `prev` (R111). -/

section
variable {s s0 : State}

/-- The step of a pixel equal to `prev`. -/
theorem step_of_equal_pixel (moves : EncMoves s s0) (loop : s0.enc.InLoop) (read : readPixel s0 = some s0.enc.codec.prev) :
    step s = .next (runStep s0) := by
  rw [step_of_encMoves moves, encTurn_of_pixel loop.1 loop.2 read, encodePixel, if_pos rfl]

theorem runStep_of_inside (below : s.enc.codec.run + 1 ≠ 62) (inside : s.enc.pos + 1 ≠ s.enc.desc.pixelCount) :
    runStep s = afterPixel [] { s.enc.codec with run := s.enc.codec.run + 1 } s.enc.env s := by
  have counts : ¬ (s.enc.codec.run + 1 = 62 ∨ isLastPixel s.enc.desc s.enc.pos = true) := by
    rw [isLastPixel, decide_eq_true_iff]
    exact not_or.2 ⟨below, inside⟩
  exact if_neg counts

theorem runStep_of_flush (flushes : s.enc.codec.run + 1 = 62 ∨ s.enc.pos + 1 = s.enc.desc.pixelCount) :
    runStep s = (emitRun (setRun (s.enc.codec.run + 1) s)).andThen nextPos := by
  have flushes' : s.enc.codec.run + 1 = 62 ∨ isLastPixel s.enc.desc s.enc.pos = true := by
    rwa [isLastPixel, decide_eq_true_iff]
  exact if_pos flushes'

/-- R55: the byte of a run of `n + 1`. -/
theorem encode_run_succ {n : Nat} (bounded : n < 62) : encode (.run (n + 1)) = [0xC0#8 ||| BitVec.ofNat 8 n] := by
  rw [encode_run_eq_pendingRunBytes n.succ_pos bounded, pendingRunBytes, if_neg n.succ_ne_zero, Nat.succ_sub_one]

theorem runStep_accepted (flushes : s.enc.codec.run + 1 = 62 ∨ s.enc.pos + 1 = s.enc.desc.pixelCount)
    (bounded : s.enc.codec.run < 62) (accepted : s.enc.accepts = true) :
    runStep s = afterPixel [0xC0#8 ||| BitVec.ofNat 8 s.enc.codec.run] { s.enc.codec with run := 0 } s.enc.env.advance s := by
  rw [runStep_of_flush flushes, emitRun_accepted (by exact accepted), setRun_enc_run, encode_run_succ bounded]
  rfl

end

/-- Settles O24: the count goes up, or the RUN of the new count is appended and the counter reset. -/
theorem equalPixelExtendsRun : Obligations.EqualPixelExtendsRun := by
  unfold Obligations.EqualPixelExtendsRun
  intro s s0 moves loop read
  rw [step_of_equal_pixel moves loop read]
  constructor
  · intro below inside
    rw [runStep_of_inside below inside]
    exact ⟨_, rfl, rfl, rfl, rfl, rfl, rfl, afterPixel_appended _ _ _ _, afterPixel_inputsKept _ _ _ _⟩
  · intro flushes bounded accepted
    rw [runStep_accepted flushes bounded accepted]
    exact ⟨_, rfl, rfl, rfl, rfl, rfl, rfl, afterPixel_appended _ _ _ _, afterPixel_inputsKept _ _ _ _⟩

/-- Settles O27: the refused RUN leaves the count it was to carry. -/
theorem refusedRunFails : Obligations.RefusedRunFails := by
  unfold Obligations.RefusedRunFails
  intro s s0 moves loop read flushes refused
  rw [step_of_equal_pixel moves loop read, runStep_of_flush flushes, emitRun_refused (by exact refused)]
  exact ⟨_, rfl, rfl, .nil rfl rfl, rfl, rfl, rfl, rfl, rfl, rfl, rfl, rfl, ⟨rfl, rfl, rfl⟩⟩

/-- Settles O28: the refused epilogue, its fields read off. -/
theorem refusedEpilogueFails : Obligations.RefusedEpilogueFails := by
  unfold Obligations.RefusedEpilogueFails
  intro s s0 moves running last refused
  rw [step_of_encMoves moves, encTurn_of_last running last.ge, finishEncode_refused refused]
  exact ⟨_, rfl, rfl, .nil rfl rfl, rfl, rfl, rfl, rfl, rfl, rfl, ⟨rfl, rfl, rfl⟩⟩

/-! A pixel that differs from `prev`: the tests that select its opcode, as the rules write them (R116, R117). -/

/-- R116: the representatives of -2..1. -/
theorem inDiffRange_iff_mem (v : Byte) : inDiffRange v = true ↔ v ∈ [254#8, 255#8, 0#8, 1#8] := by
  revert v; decide

theorem diffFits_iff (cur prev : Pixel) : diffFits cur prev = true ↔
    ∀ v ∈ [cur.r - prev.r, cur.g - prev.g, cur.b - prev.b], v ∈ [254#8, 255#8, 0#8, 1#8] := by
  simp only [diffFits, differences, sub8, Bool.and_eq_true, inDiffRange_iff_mem, List.forall_mem_cons, and_assoc,
    List.not_mem_nil, false_imp_iff, implies_true, and_true]

theorem not_diffFits_iff (cur prev : Pixel) : ¬ diffFits cur prev = true ↔
    ∃ v ∈ [cur.r - prev.r, cur.g - prev.g, cur.b - prev.b], v ∉ [254#8, 255#8, 0#8, 1#8] := by
  simp only [diffFits_iff, not_forall, exists_prop]

theorem lumaFits_iff (cur prev : Pixel) : lumaFits cur prev = true ↔
    ((cur.g - prev.g).toNat > 223 ∨ (cur.g - prev.g).toNat < 32) ∧
      ∀ v ∈ [(cur.r - prev.r) - (cur.g - prev.g), (cur.b - prev.b) - (cur.g - prev.g)], v.toNat > 247 ∨ v.toNat < 8 := by
  simp only [lumaFits, differences, sub8, Bool.and_eq_true, inLumaGreenRange_iff_representative,
    inLumaCrossRange_iff_representative, List.forall_mem_cons, and_assoc, List.not_mem_nil, false_imp_iff, implies_true,
    and_true]

/-! The opcode each case of the priority order selects (R113, R116 to R119). -/

theorem chosen_of_hit {c : Codec} {cur : Pixel} (hit : c.entry (pixelHash cur) = cur) : chosen c cur = .index (pixelHash cur) :=
  if_pos hit

section
variable {c : Codec} {cur : Pixel} (miss : c.entry (pixelHash cur) ≠ cur)
include miss

theorem chosen_of_alpha (alpha : cur.a ≠ c.prev.a) : chosen c cur = .rgba cur.r cur.g cur.b cur.a := by
  rw [chosen, if_neg miss]
  exact if_neg alpha

variable (alpha : cur.a = c.prev.a)
include alpha

theorem chosen_of_diff (diff : diffFits cur c.prev = true) :
    chosen c cur = .diff (s8 (cur.r - c.prev.r)) (s8 (cur.g - c.prev.g)) (s8 (cur.b - c.prev.b)) := by
  rw [chosen, if_neg miss]
  exact (if_pos alpha).trans (if_pos diff)

theorem chosen_of_luma (notDiff : ¬ diffFits cur c.prev = true) (luma : lumaFits cur c.prev = true) :
    chosen c cur = .luma (s8 (cur.g - c.prev.g)) (s8 ((cur.r - c.prev.r) - (cur.g - c.prev.g)))
      (s8 ((cur.b - c.prev.b) - (cur.g - c.prev.g))) := by
  rw [chosen, if_neg miss]
  exact (if_pos alpha).trans ((if_neg notDiff).trans (if_pos luma))

theorem chosen_of_neither (notDiff : ¬ diffFits cur c.prev = true) (notLuma : ¬ lumaFits cur c.prev = true) :
    chosen c cur = .rgb cur.r cur.g cur.b := by
  rw [chosen, if_neg miss]
  exact (if_pos alpha).trans ((if_neg notDiff).trans (if_neg notLuma))

end

/-- R58: the biased field of a signed reading is the byte with the bias added. -/
theorem ofInt_s8_add (v : Byte) (bias : Int) : BitVec.ofInt 8 (s8 v + bias) = v + BitVec.ofInt 8 bias := by
  rw [BitVec.ofInt_add, ofInt_s8]

/-- R123: the bytes of the opcode chosen are those the rules write in each case. -/
theorem opcodeBytes_chosen (c : Codec) (cur : Pixel) : OpcodeBytes c cur (encode (chosen c cur)) := by
  obtain ⟨encodeIndex, encodeDiff, encodeLuma, -⟩ := encodedBytesAsFormulas
  have wf := chosen_wellFormed c cur
  refine ⟨fun hit => ?_, fun miss alpha diff => ?_, fun miss alpha notDiff green cross => ?_,
    fun miss alpha notDiff notLuma => ?_, fun miss alpha => ?_⟩
  · rw [chosen_of_hit hit, encodeIndex]
  · rw [← diffFits_iff] at diff
    rw [chosen_of_diff miss alpha diff] at wf ⊢
    rw [encodeDiff _ _ _ wf]
    simp only [ofInt_s8_add]
    rfl
  · rw [← not_diffFits_iff] at notDiff
    rw [chosen_of_luma miss alpha notDiff ((lumaFits_iff _ _).2 ⟨green, cross⟩)] at wf ⊢
    rw [encodeLuma _ _ _ wf]
    simp only [ofInt_s8_add]
    rfl
  · rw [← not_diffFits_iff] at notDiff
    rw [chosen_of_neither miss alpha notDiff (mt (lumaFits_iff _ _).1 notLuma)]
    rfl
  · rw [chosen_of_alpha miss alpha]
    rfl

/-- R112 to R120: with a sink that accepts, a pending RUN and the chosen opcode are appended and the pixel is inserted. -/
theorem flushRun_andThen_opcodeStep_accepted {s : State} (cur : Pixel) (bounded : s.enc.codec.run < 62)
    (accepted : s.enc.accepts = true) (acceptedNext : 0 < s.enc.codec.run → s.enc.acceptsNext = true) :
    ∃ env, (flushRun s).andThen (opcodeStep cur) =
      afterPixel (pendingRunBytes s.enc.codec.run ++ encode (chosen s.enc.codec cur))
        { s.enc.codec.materialize cur with run := 0 } env s := by
  rcases Nat.eq_zero_or_pos s.enc.codec.run with settled | pending
  · refine ⟨s.enc.env.advance, ?_⟩
    rw [flushRun_of_zero settled, Progress.andThen_go, opcodeStep_accepted cur accepted,
      Codec.withRun_zero (c := s.enc.codec.materialize cur) settled, settled]
    rfl
  · refine ⟨s.enc.env.advance.advance, ?_⟩
    rw [flushRun_of_pos pending, emitRun_accepted accepted, Progress.andThen_go,
      opcodeStep_accepted cur (by exact acceptedNext pending), ← encode_run_eq_pendingRunBytes pending bounded.le, afterPixel,
      Memory.writeBytes_append, List.length_append, ← Nat.add_assoc]
    rfl

/-- Settles O25: what is appended is the pending RUN and the chosen opcode, whose bytes are those of the rules. -/
theorem differentPixelIsEncoded : Obligations.DifferentPixelIsEncoded := by
  unfold Obligations.DifferentPixelIsEncoded
  intro s s0 cur moves loop read differs bounded accepted acceptedNext
  obtain ⟨env, encoded⟩ := flushRun_andThen_opcodeStep_accepted cur bounded accepted acceptedNext
  rw [step_of_different_pixel moves loop read differs, encoded]
  exact ⟨_, _, rfl, opcodeBytes_chosen _ _, afterPixel_appended _ _ _ _, rfl, rfl, s0.enc.codec.entry_insert cur, rfl, rfl,
    afterPixel_inputsKept _ _ _ _⟩

end Sys2Proof.Machine
end

section
/-! The start of an ENCODE job that does not come to its first pixel (R105 to R108). -/

namespace Sys2Proof.Machine

section
variable {s : State} {d : Descriptor} {pixels : List Byte} {rest : List Input}

theorem startEncode_refused (legal : d.Legal) (size : pixels.length = d.pixelCount * d.channels.toNat)
    (refused : s.enc.accepts = false) : startEncode d pixels s = .next (headerRefused d pixels s) := by
  obtain ⟨check, allowed⟩ := (encode_allowed_iff d pixels.length).2 ⟨legal, size⟩
  have sink : (initEncode (latchImage d pixels s)).enc.accepts = false := refused
  simp only [startEncode, check, allowed, if_true, append_refused sink]
  rfl

/-- A check that fails (R106) ends the job with the inputs taken and nothing else done. -/
theorem step_of_failed_check {k : ErrorKind} (issued : Issued s (.encode d pixels false) rest)
    (idle : s.enc.control.phase ≠ .running) (failed : encodeCheck d pixels.length = some k) :
    ∃ t, step s = .next t ∧ EncodeErrorAtStart s t k := by
  refine ⟨raiseEnc k (latchImage d pixels { s with inputs := rest }), ?_,
    ⟨rfl, rfl, Memory.read_nil, rfl, rfl, rfl, ⟨rfl, rfl, rfl⟩⟩⟩
  rw [step_of_issued issued idle rfl, startCommand]
  simp only [startEncode, failed]

end

/-! The three checks in their order (R106). -/

section
variable {d : Descriptor} {n : Nat} (buffer : n ≠ 0)
include buffer

theorem encodeCheck_of_no_pixels (zero : d.pixelCount = 0) : encodeCheck d n = some .zeroPixelCount := by
  rw [encodeCheck, if_neg buffer, if_pos zero]

variable (nonempty : 0 < d.pixelCount)
include nonempty

theorem encodeCheck_of_large (large : Config.maxPixels < d.pixelCount) : encodeCheck d n = some .imageTooLarge := by
  rw [encodeCheck, if_neg buffer, if_neg nonempty.ne', if_pos large]

theorem encodeCheck_of_bounded (bounded : d.pixelCount ≤ Config.maxPixels) : encodeCheck d n = none := by
  rw [encodeCheck, if_neg buffer, if_neg nonempty.ne', if_neg bounded.not_gt]

end

/-- Settles O39: each error is that of the first check that fails. -/
theorem encodeChecksInOrder : Obligations.EncodeChecksInOrder := by
  unfold Obligations.EncodeChecksInOrder
  intro s d pixels rest issued idle
  refine ⟨fun empty => ?_, fun buffer zero => ?_, fun buffer large => ?_⟩
  · exact step_of_failed_check issued idle (empty ▸ rfl)
  · exact step_of_failed_check issued idle (encodeCheck_of_no_pixels (List.length_eq_zero_iff.not.2 buffer) zero)
  · exact step_of_failed_check issued idle
      (encodeCheck_of_large (List.length_eq_zero_iff.not.2 buffer) (Nat.zero_lt_of_lt large) large)

/-- Settles O40: of everything ENCODE can come to, the checks passed leave the refusal or a job that keeps every
precondition. -/
theorem encodePreconditionsRefused : Obligations.EncodePreconditionsRefused := by
  unfold Obligations.EncodePreconditionsRefused
  intro s d pixels rest issued idle buffer nonempty bounded breach
  have passed := encodeCheck_of_bounded (d := d) (List.length_eq_zero_iff.not.2 buffer) nonempty bounded
  rw [step_of_issued issued idle rfl, startCommand]
  rcases startEncode_cases d pixels { s with inputs := rest } with ⟨k, failed, -⟩ | refused | ⟨⟨legal, size⟩, -⟩
  · rw [passed] at failed; cases failed
  · exact refused
  · rcases breach with ⟨three, four⟩ | ⟨zero, one⟩ | length
    · exact absurd legal.channels (not_or.2 ⟨three, four⟩)
    · exact absurd legal.colorspace (not_or.2 ⟨zero, one⟩)
    · exact absurd size length

/-- Settles O38: the state after the refused header read off field by field. -/
theorem refusedHeaderFails : Obligations.RefusedHeaderFails := by
  unfold Obligations.RefusedHeaderFails
  intro s d pixels rest issued idle legal size refused
  refine ⟨headerRefused d pixels { s with inputs := rest }, ?_, rfl, rfl, rfl, rfl, Memory.read_ofBytes pixels, rfl, rfl, rfl,
    Codec.entry_initial, ⟨rfl, rfl, rfl⟩, rfl⟩
  rw [step_of_issued issued idle rfl]
  exact startEncode_refused legal size refused

end Sys2Proof.Machine
end

section
/-! The RUN half of the simulation (R111, R149, R154), and with it what an accepted write leaves in PIX_OUT (R34, R151). -/

namespace Sys2Proof.Machine

theorem length_pixelBytes_le (channels : Byte) (p : Pixel) : (pixelBytes channels p).length ≤ channels.toNat := by
  by_cases three_or_four : channels = 3 ∨ channels = 4
  · exact (length_pixelBytes p three_or_four).le
  · obtain ⟨three, four⟩ := not_or.1 three_or_four
    rw [pixelBytes, if_neg four, if_neg three]
    exact Nat.zero_le _

/-- R151: the colours stand first, whether alpha follows or not. -/
theorem pixelBytes_colours {channels : Byte} (p : Pixel) (three_or_four : channels = 3 ∨ channels = 4) :
    (pixelBytes channels p)[0]? = some p.r ∧ (pixelBytes channels p)[1]? = some p.g ∧
      (pixelBytes channels p)[2]? = some p.b := by
  rcases three_or_four with rfl | rfl
  · exact ⟨rfl, rfl, rfl⟩
  · exact ⟨rfl, rfl, rfl⟩

/-- The byte a memory holds where the byte of that number was written. -/
theorem Memory.read_writeBytes_of_getElem? (m : Memory) (addr : Nat) {vs : List Byte} {k : Nat} {b : Byte}
    (byte : vs[k]? = some b) : (m.writeBytes addr vs).read (addr + k) = some b := by
  rw [Memory.read_writeBytes_inside _ _ _ _ (List.getElem?_eq_some_iff.1 byte).1, byte]

/-- R151, R34: an accepted write puts `prev` where output pixel number `opos` belongs. -/
theorem writePixel_pixelWritten {s : State} (accepted : s.dec.accepts = true) : PixelWritten s (writePixel s) := by
  rw [writePixel_accepted accepted]
  have stands {k : Nat} {b : Byte} (byte : (pixelBytes s.dec.desc.channels s.dec.codec.prev)[k]? = some b) :=
    Memory.read_writeBytes_of_getElem? s.pixOut (pixelAddress s.dec.desc s.dec.opos) byte
  have colours := pixelBytes_colours (channels := s.dec.desc.channels) s.dec.codec.prev
  have length := length_pixelBytes_le s.dec.desc.channels s.dec.codec.prev
  exact {
    opos := rfl
    red := fun channels => stands (colours channels).1
    green := fun channels => stands (colours channels).2.1
    blue := fun channels => stands (colours channels).2.2
    alpha := fun four => stands (by rw [pixelBytes, if_pos four]; rfl)
    elsewhere := fun a outside => Memory.read_writeBytes_outside _ _ (by omega) }

/-- An opcode sets its codec registers and the cursor before it writes the pixel, which belongs where it did before. -/
theorem beforeWrite_pixelWritten (i : Instr) {s : State} (accepted : s.dec.accepts = true) :
    PixelWritten s (writePixel (beforeWrite i s)) :=
  { writePixel_pixelWritten (s := beforeWrite i s) accepted with }

/-- Settles O57: RUN changes nothing of either codec but the counter. -/
theorem runFollowsEncoder : Obligations.RunFollowsEncoder := by
  unfold Obligations.RunFollowsEncoder
  intro s prev index low high accepted written
  have decoder := writePixel_beforeWrite_codec (.run s.enc.codec.run) s
  refine ⟨(wellFormed_run_iff _).2 ⟨low, high⟩, _, _, emitRun_accepted accepted, .of_written rfl rfl, rfl, rfl, rfl,
    exec_eq _ s, beforeWrite_pixelWritten _ written, ?_, ?_, ?_⟩
  · rw [decoder]
    exact Nat.sub_add_cancel low
  · rw [decoder]
    exact prev
  · rw [decoder]
    exact index

end Sys2Proof.Machine
end

section
/-! The decoder's steps (R140 to R152). Every step that writes a pixel is an update of the codec registers and the cursor, then
`writePixel`. An opcode that produces a pixel materializes it; the others, a RUN, a replication and a step of an exhausted input,
write `prev` again, and are one operation, `repeatPrev`. -/

namespace Sys2Proof.Machine

/-! Which step DEC makes. -/

/-- A move of DEC is the machine's step. -/
theorem step_of_decMoves {s s0 : State} (moves : DecMoves s s0) : step s = decTurn s0 := by
  rcases moves with ⟨none, running, rfl⟩ | ⟨rest, turn, rfl⟩
  · simp only [step, none, defaultTurn, running, if_true]
  · simp only [step, turn, takeInput, agentTurn]

theorem step_of_loop {s s0 : State} (moves : DecMoves s s0) (loop : s0.dec.InLoop) : step s = decodePixel s0 := by
  rw [step_of_decMoves moves, decTurn_of_pixel loop.1 loop.2]

/-- A move of DEC with no pixel left: the end of the job. -/
theorem decTurn_of_last {s : State} (running : s.dec.control.phase = .running) (last : s.dec.desc.pixelCount ≤ s.dec.opos) :
    decTurn s = .next (finishDecode s) := by
  simp only [decTurn, running, Nat.not_lt.2 last, if_true, if_false]

/-- R142, R143: the fetched opcode is executed. -/
theorem decodePixel_of_fetch {s : State} {i : Instr} {rest : List Byte} (settled : s.dec.codec.run = 0)
    (more : s.dec.cursor < s.dec.lastTagCursor) (decoded : decode (fetchWindow s) = .ok (i, rest)) :
    decodePixel s = exec i s := by
  rw [decodePixel, settled, if_neg (Nat.lt_irrefl 0), if_pos more, fetchStep, decoded]

/-- Settles O15: no run is pending and the tag is before `last_tag_cursor`, so the step fetches. -/
theorem stepRunsDecodedOpcode : Obligations.StepRunsDecodedOpcode := by
  unfold Obligations.StepRunsDecodedOpcode
  rintro s s0 i rest moves ⟨loop, settled, more⟩ decoded
  rw [step_of_loop moves loop, decodePixel_of_fetch settled more decoded]

/-- Settles O22: with no pixel left DEC's move is the end of the job. -/
theorem decodeJobFinishes : Obligations.DecodeJobFinishes := by
  unfold Obligations.DecodeJobFinishes
  intro s s0 moves running last
  rw [step_of_decMoves moves, decTurn_of_last running last.ge]
  rfl

/-! What an accepted write leaves alone. -/

@[simp] theorem writePixel_cursor (s : State) : (writePixel s).dec.cursor = s.dec.cursor := by
  simp only [writePixel]; split_ifs <;> rfl

theorem writePixel_loopFrame {s : State} (accepted : s.dec.accepts = true) : LoopFrame s (writePixel s) := by
  rw [writePixel_accepted accepted]
  constructor <;> rfl

theorem LoopFrame.refl (s : State) : LoopFrame s s := by constructor <;> rfl

theorem LoopFrame.trans {s t u : State} (first : LoopFrame s t) (second : LoopFrame t u) : LoopFrame s u where
  enc := second.enc.trans first.enc
  pixIn := second.pixIn.trans first.pixIn
  strOut := second.strOut.trans first.strOut
  strIn := second.strIn.trans first.strIn
  inputs := second.inputs.trans first.inputs
  inLen := second.inLen.trans first.inLen
  desc := second.desc.trans first.desc
  lastTagCursor := second.lastTagCursor.trans first.lastTagCursor
  isQoi := second.isQoi.trans first.isQoi
  control := second.control.trans first.control

/-! The opcodes that produce a pixel (R144 to R148, R150). -/

section
variable {s : State}

/-- The registers an opcode sets before its write are outside the frame. -/
theorem beforeWrite_loopFrame (i : Instr) (accepted : s.dec.accepts = true) : LoopFrame s (writePixel (beforeWrite i s)) :=
  { writePixel_loopFrame (s := beforeWrite i s) accepted with }

/-- An opcode that materializes `p` produces it, in a step as far as the opcode is long. -/
theorem exec_produced {i : Instr} {p : Pixel} (accepted : s.dec.accepts = true)
    (materialized : codecAfter s.dec.codec i = s.dec.codec.materialize p) :
    ∃ t, exec i s = .next t ∧ Produced s t p i.length := by
  have codec := (writePixel_beforeWrite_codec i s).trans materialized
  refine ⟨_, exec_eq i s, ?_, ?_, writePixel_cursor _, fun entry => ?_, beforeWrite_pixelWritten i accepted,
    beforeWrite_loopFrame i accepted⟩
  · rw [codec, Codec.materialize_prev]
  · rw [codec, Codec.materialize_run]
  · rw [codec, Codec.materialize_prev, Codec.entry_materialize, Codec.entry_insert]

end

/-- Settles O7: RGB materializes its bytes and the old alpha. -/
theorem rgbExecutes : Obligations.RgbExecutes := by
  unfold Obligations.RgbExecutes
  exact fun s r g b accepted => ⟨rfl, exec_produced accepted rfl⟩

/-- Settles O8: RGBA materializes its bytes. -/
theorem rgbaExecutes : Obligations.RgbaExecutes := by
  unfold Obligations.RgbaExecutes
  exact fun s r g b a accepted => ⟨rfl, exec_produced accepted rfl⟩

/-- Settles O9: the byte is the entry's number, as `encode` writes it. -/
theorem indexExecutes : Obligations.IndexExecutes := by
  unfold Obligations.IndexExecutes
  exact fun s h accepted => ⟨decode_of_encode_eq rfl (encode_index_eq h), exec_produced accepted rfl⟩

/-- R58, R75 (e): a biased field is added to a component in 8-bit arithmetic. -/
theorem addSigned_field {w : Nat} (c : Byte) (f : BitVec w) (bias : Int) :
    addSigned c ((f.toNat : Int) - bias) = c + (f.setWidth 8 - BitVec.ofInt 8 bias) := by
  rw [addSigned_eq_add8, add8, Int.sub_eq_add_neg, BitVec.ofInt_add, BitVec.ofInt_neg, BitVec.ofInt_natCast,
    BitVec.ofNat_toNat, BitVec.sub_eq_add_neg]

/-- Signed quantities are added mod 256 one after the other. -/
theorem addSigned_add (c : Byte) (d e : Int) : addSigned c (d + e) = addSigned (addSigned c d) e := by
  simp only [addSigned_eq_add8, add8, BitVec.ofInt_add, BitVec.add_assoc]

/-- Settles O10: each field, less its bias, is added mod 256. -/
theorem diffExecutes : Obligations.DiffExecutes := by
  unfold Obligations.DiffExecutes
  intro s fr fg fb accepted
  have decoded := decode_of_diff_tag [] (diff_tag_fields fr fg fb).1
  rw [decodeDiff_fields] at decoded
  refine ⟨decoded, exec_produced accepted ?_⟩
  simp only [codecAfter, shiftedPixel, addSigned_field, ← add_sub_assoc]
  rfl

/-- R148: red and blue move by `gd - 8` and their nibble. -/
theorem addSigned_luma_fields (c : Byte) (green : BitVec 6) (cross : BitVec 4) :
    addSigned c ((green.toNat : Int) - 32 + ((cross.toNat : Int) - 8))
      = c + (green.setWidth 8 - 32) - 8 + cross.setWidth 8 := by
  have biases : BitVec.ofInt 8 32 = 32 ∧ BitVec.ofInt 8 8 = 8 := ⟨rfl, rfl⟩
  rw [addSigned_add, addSigned_field, addSigned_field, biases.1, biases.2]
  ring

/-- Settles O11: green's field moves all three colours, and each nibble one of the other two. -/
theorem lumaExecutes : Obligations.LumaExecutes := by
  unfold Obligations.LumaExecutes
  intro s fg fr fb accepted
  have decoded := decode_of_luma_tag [] (tag := 0b10#2 ++ fg) BitVec.extractLsb'_append_eq_left (fr ++ fb)
  rw [decodeLuma_fields] at decoded
  refine ⟨decoded, exec_produced accepted ?_⟩
  simp only [codecAfter, shiftedPixel, addSigned_field, addSigned_luma_fields]
  rfl

/-- Settles O13: the refused write ends the job, after the opcode has set the codec registers and the cursor. -/
theorem refusedPixelWriteFails : Obligations.RefusedPixelWriteFails := by
  unfold Obligations.RefusedPixelWriteFails
  intro s i refused
  refine ⟨_, (exec_eq i s).trans (congrArg _ (writePixel_refused (s := beforeWrite i s) refused)), rfl, rfl, rfl,
    ⟨rfl, rfl, rfl⟩, rfl, rfl, rfl, rfl, rfl, rfl, rfl, fun v t' executed => ?_⟩
  obtain rfl := Host.Outcome.next.inj ((exec_eq i _).symm.trans executed)
  exact writePixel_beforeWrite_codec i _

/-! The steps that write `prev` again (R141, R142, R149). -/

/-- `prev` is written once more, with the run counter and the cursor at these values. -/
def repeatPrev (run cursor : Nat) (s : State) : State :=
  writePixel { s with dec := { s.dec with codec := { s.dec.codec with run := run }, cursor := cursor } }

section
variable {s : State}

theorem exec_run_eq_repeatPrev (n : Nat) (s : State) :
    exec (.run n) s = .next (repeatPrev (n - 1) (s.dec.cursor + 1) s) := rfl

/-- R141, R142: a step of the loop that fetches nothing; with no run pending the counter stays at 0. -/
theorem decodePixel_eq_repeatPrev
    (repeats : 0 < s.dec.codec.run ∨ s.dec.codec.run = 0 ∧ s.dec.lastTagCursor ≤ s.dec.cursor) :
    decodePixel s = .next (repeatPrev (s.dec.codec.run - 1) s.dec.cursor s) := by
  rcases repeats with pending | ⟨settled, exhausted⟩
  · rw [decodePixel, if_pos pending]; rfl
  · rw [decodePixel, if_neg (by omega), if_neg (by omega), repeatPrev, settled, Codec.withRun_zero settled]

theorem repeatPrev_codec (run cursor : Nat) (s : State) :
    (repeatPrev run cursor s).dec.codec = { s.dec.codec with run := run } := writePixel_codec _

@[simp] theorem repeatPrev_run (run cursor : Nat) (s : State) : (repeatPrev run cursor s).dec.codec.run = run := by
  rw [repeatPrev_codec]

@[simp] theorem repeatPrev_prev (run cursor : Nat) (s : State) :
    (repeatPrev run cursor s).dec.codec.prev = s.dec.codec.prev := by rw [repeatPrev_codec]

@[simp] theorem repeatPrev_index (run cursor : Nat) (s : State) :
    (repeatPrev run cursor s).dec.codec.index = s.dec.codec.index := by rw [repeatPrev_codec]

@[simp] theorem repeatPrev_cursor (run cursor : Nat) (s : State) : (repeatPrev run cursor s).dec.cursor = cursor :=
  writePixel_cursor _

variable (run cursor : Nat)

theorem repeatPrev_accepted (accepted : s.dec.accepts = true) :
    repeatPrev run cursor s = { s with
      pixOut := s.pixOut.writeBytes (pixelAddress s.dec.desc s.dec.opos) (pixelBytes s.dec.desc.channels s.dec.codec.prev)
      dec := { s.dec with
        codec := { s.dec.codec with run := run }
        cursor := cursor
        opos := s.dec.opos + 1
        env := s.dec.env.advance } } := writePixel_accepted accepted

theorem repeatPrev_refused (refused : s.dec.accepts = false) :
    repeatPrev run cursor s = { s with
      dec := { s.dec with
        codec := { s.dec.codec with run := run }
        cursor := cursor
        env := s.dec.env.advance
        control := ⟨.error, .raised .writeFailed⟩ } } := writePixel_refused refused

theorem repeatPrev_pixelWritten (accepted : s.dec.accepts = true) : PixelWritten s (repeatPrev run cursor s) :=
  { writePixel_pixelWritten
      (s := { s with dec := { s.dec with codec := { s.dec.codec with run := run }, cursor := cursor } }) accepted with }

theorem repeatPrev_loopFrame (accepted : s.dec.accepts = true) : LoopFrame s (repeatPrev run cursor s) := by
  rw [repeatPrev_accepted run cursor accepted]
  constructor <;> rfl

end

/-- Settles O12: RUN writes `prev` again, with the payload in the counter and the cursor past the byte. -/
theorem runExecutes : Obligations.RunExecutes := by
  unfold Obligations.RunExecutes
  intro s f accepted payload
  have bytes : encode (.run (f.toNat + 1)) = [0b11#2 ++ f] := by
    rw [encode, Nat.add_sub_cancel, BitVec.ofNat_toNat, BitVec.setWidth_eq]
  exact ⟨decode_of_encode_eq ((wellFormed_run_iff _).2 ⟨by omega, by omega⟩) bytes, _, exec_run_eq_repeatPrev _ s,
    repeatPrev_run _ _ s, repeatPrev_prev _ _ s, repeatPrev_index _ _ s, repeatPrev_cursor _ _ s,
    repeatPrev_pixelWritten _ _ accepted, repeatPrev_loopFrame _ _ accepted⟩

/-- A step of DEC with pixels left that fetches nothing. -/
theorem step_eq_repeatPrev {s s0 : State} (moves : DecMoves s s0) (loop : s0.dec.InLoop)
    (repeats : 0 < s0.dec.codec.run ∨ s0.dec.codec.run = 0 ∧ s0.dec.lastTagCursor ≤ s0.dec.cursor) :
    step s = .next (repeatPrev (s0.dec.codec.run - 1) s0.dec.cursor s0) := by
  rw [step_of_loop moves loop, decodePixel_eq_repeatPrev repeats]

/-- Settles O18: the step of a pending run writes `prev` again with the counter one less. -/
theorem runIsReplicated : Obligations.RunIsReplicated := by
  unfold Obligations.RunIsReplicated
  intro s s0 moves loop pending accepted
  exact ⟨_, step_eq_repeatPrev moves loop (.inl pending), repeatPrev_run _ _ s0, repeatPrev_prev _ _ s0,
    repeatPrev_index _ _ s0, repeatPrev_cursor _ _ s0, repeatPrev_pixelWritten _ _ accepted,
    repeatPrev_loopFrame _ _ accepted⟩

/-- Settles O19: the step past the last tag writes `prev` again; the counter it leaves is the 0 it found. -/
theorem exhaustedInputRepeatsPrev : Obligations.ExhaustedInputRepeatsPrev := by
  unfold Obligations.ExhaustedInputRepeatsPrev
  intro s s0 moves loop settled exhausted accepted
  refine ⟨_, step_eq_repeatPrev moves loop (.inr ⟨settled, exhausted⟩), ?_, repeatPrev_cursor _ _ s0,
    repeatPrev_pixelWritten _ _ accepted, repeatPrev_loopFrame _ _ accepted⟩
  rw [repeatPrev_codec, settled, Codec.withRun_zero settled]

/-- Settles O20: in both steps that fetch nothing the refused write ends the job and nothing is written. -/
theorem refusedRepeatFails : Obligations.RefusedRepeatFails := by
  unfold Obligations.RefusedRepeatFails
  intro s s0 moves loop repeats refused
  rw [step_eq_repeatPrev moves loop repeats, repeatPrev_refused _ _ refused]
  exact ⟨_, rfl, rfl, rfl, fun _ _ => rfl, rfl, rfl, rfl, rfl, ⟨rfl, rfl, rfl⟩, rfl, rfl, rfl, rfl, rfl, rfl⟩

/-! The pixels of a whole run (R141, R149, R151). -/

theorem pixelAddress_mono (d : Descriptor) {i j : Nat} (le : i ≤ j) : pixelAddress d i ≤ pixelAddress d j :=
  Nat.mul_le_mul_right _ le

/-- The bytes of a pixel end before the pixels after it. -/
theorem pixelAddress_add_lt (d : Descriptor) {i j : Nat} (lt : i < j) {p : Pixel} {k : Nat} {b : Byte}
    (byte : (pixelBytes d.channels p)[k]? = some b) : pixelAddress d i + k < pixelAddress d j := by
  have inside := (List.getElem?_eq_some_iff.1 byte).1
  have count := length_pixelBytes_le d.channels p
  have next := pixelAddress_mono d (Nat.succ_le_of_lt lt)
  rw [pixelAddress, Nat.succ_mul, ← pixelAddress] at next
  omega

/-- The `n` output pixels from `opos` on are copies of `prev`, which stays, and so does the index; every other byte of PIX_OUT
reads as before, and nothing else changed but the run counter and the cursor. -/
structure PrevRepeated (s t : State) (n : Nat) : Prop where
  opos : t.dec.opos = s.dec.opos + n
  prev : t.dec.codec.prev = s.dec.codec.prev
  index : t.dec.codec.index = s.dec.codec.index
  frame : LoopFrame s t
  bytes : ∀ k, k < n → ∀ j b, (pixelBytes s.dec.desc.channels s.dec.codec.prev)[j]? = some b →
    t.pixOut.read (pixelAddress s.dec.desc (s.dec.opos + k) + j) = some b
  elsewhere : ∀ a, ¬ (pixelAddress s.dec.desc s.dec.opos ≤ a ∧ a < pixelAddress s.dec.desc (s.dec.opos + n)) →
    t.pixOut.read a = s.pixOut.read a

theorem PrevRepeated.refl (s : State) : PrevRepeated s s 0 where
  opos := rfl
  prev := rfl
  index := rfl
  frame := .refl s
  bytes := fun _ below => absurd below (Nat.not_lt_zero _)
  elsewhere := fun _ _ => rfl

/-- One write. -/
theorem repeatPrev_prevRepeated {s : State} (run cursor : Nat) (accepted : s.dec.accepts = true) :
    PrevRepeated s (repeatPrev run cursor s) 1 := by
  have written := repeatPrev_pixelWritten run cursor accepted
  refine ⟨written.opos, repeatPrev_prev _ _ s, repeatPrev_index _ _ s, repeatPrev_loopFrame _ _ accepted, ?_, ?_⟩
  · intro k below j b byte
    obtain rfl : k = 0 := by omega
    rw [repeatPrev_accepted _ _ accepted]
    exact Memory.read_writeBytes_of_getElem? _ _ byte
  · intro a outside
    rw [pixelAddress, pixelAddress, Nat.succ_mul] at outside
    exact written.elsewhere a outside

/-- The pixels of two stretches: the later ones are written past the earlier ones. -/
theorem PrevRepeated.trans {s t u : State} {m n : Nat} (first : PrevRepeated s t m) (second : PrevRepeated t u n) :
    PrevRepeated s u (m + n) := by
  obtain ⟨opos, prev, index, frame, bytes, elsewhere⟩ := second
  rw [first.frame.desc, first.prev, first.opos] at bytes
  rw [first.frame.desc, first.opos] at elsewhere
  refine ⟨by rw [opos, first.opos, Nat.add_assoc], prev.trans first.prev, index.trans first.index, first.frame.trans frame, ?_,
    ?_⟩
  · intro k below j b byte
    by_cases earlier : k < m
    · have before := pixelAddress_add_lt s.dec.desc (Nat.add_lt_add_left earlier s.dec.opos) byte
      rw [elsewhere _ (by omega), first.bytes k earlier j b byte]
    · have later := bytes (k - m) (by omega) j b byte
      rwa [Nat.add_assoc, Nat.add_sub_cancel' (Nat.le_of_not_lt earlier)] at later
  · intro a outside
    have start := pixelAddress_mono s.dec.desc (Nat.le_add_right s.dec.opos m)
    have stop := pixelAddress_mono s.dec.desc (Nat.le_add_right (s.dec.opos + m) n)
    rw [← Nat.add_assoc] at outside
    rw [elsewhere a (by omega), first.elsewhere a (by omega)]

/-- DEC will make the next `n` moves: no input is left, and its job has `n` pixels left that the environment accepts. -/
structure MayWrite (s : State) (n : Nat) : Prop where
  inputs : s.inputs = []
  running : s.dec.control.phase = .running
  left : s.dec.opos + n ≤ s.dec.desc.pixelCount
  willing : s.dec.env.Willing n

section
variable {s : State} {n : Nat}

theorem MayWrite.moves (h : MayWrite s n) : DecMoves s s := .inl ⟨h.inputs, h.running, rfl⟩

theorem MayWrite.accepts (h : MayWrite s (n + 1)) : s.dec.accepts = true :=
  (h.willing.answer_and_advance Config.decAnswer).1

/-- One write fewer is left after a write. -/
theorem MayWrite.repeatPrev (h : MayWrite s (n + 1)) (run cursor : Nat) : MayWrite (repeatPrev run cursor s) n := by
  rw [repeatPrev_accepted run cursor h.accepts]
  have left := h.left
  exact ⟨h.inputs, h.running, by dsimp only; omega, (h.willing.answer_and_advance Config.decAnswer).2⟩

/-- R141: the replications of a pending run. -/
theorem MayWrite.replicate_all (h : MayWrite s n) (pending : s.dec.codec.run = n) :
    ∃ t, core.run n s = .next t ∧ t.dec.codec.run = 0 ∧ t.dec.cursor = s.dec.cursor ∧ PrevRepeated s t n := by
  induction n generalizing s with
  | zero => exact ⟨s, rfl, pending, rfl, .refl s⟩
  | succ n ih =>
    have left := h.left
    have first := step_eq_repeatPrev h.moves ⟨h.running, by omega⟩ (.inl (by omega))
    rw [pending, Nat.add_sub_cancel] at first
    obtain ⟨t, others, run, cursor, repeated⟩ := ih (h.repeatPrev n s.dec.cursor) (repeatPrev_run _ _ _)
    exact ⟨t, (core_run_succ n first).trans others, run, cursor.trans (repeatPrev_cursor _ _ s),
      Nat.add_comm 1 n ▸ (repeatPrev_prevRepeated _ _ h.accepts).trans repeated⟩

end

theorem decode_run_pos {bs rest : List Byte} {n : Nat} (decoded : decode bs = .ok (.run n, rest)) : 1 ≤ n :=
  ((wellFormed_run_iff n).1 (wellFormed_and_encode_of_decode decoded).1).1

/-- Settles O21: the opcode's own step writes the first pixel, the replications of the pending run the others. -/
theorem runOpcodeWritesItsPixels : Obligations.RunOpcodeWritesItsPixels := by
  unfold Obligations.RunOpcodeWritesItsPixels
  rintro s n rest more inputs fetching decoded left answers
  obtain ⟨m, rfl⟩ := Nat.exists_eq_add_of_le' (decode_run_pos decoded)
  have h : MayWrite s (m + 1) := ⟨inputs, fetching.1.1, left, more, answers.symm⟩
  have first := stepRunsDecodedOpcode s s _ _ h.moves fetching decoded
  rw [exec_run_eq_repeatPrev, Nat.add_sub_cancel] at first
  obtain ⟨t, others, run, cursor, repeated⟩ := (h.repeatPrev m (s.dec.cursor + 1)).replicate_all (repeatPrev_run _ _ _)
  obtain ⟨opos, prev, index, frame, bytes, elsewhere⟩ :=
    Nat.add_comm 1 m ▸ (repeatPrev_prevRepeated m (s.dec.cursor + 1) h.accepts).trans repeated
  refine ⟨t, (core_run_succ m first).trans others, opos, run, prev, index, cursor.trans (repeatPrev_cursor _ _ s), frame,
    fun k below => ⟨fun channels => ?_, fun four => ?_⟩, elsewhere⟩
  · obtain ⟨red, green, blue⟩ := pixelBytes_colours s.dec.codec.prev channels
    exact ⟨bytes k below 0 _ red, bytes k below 1 _ green, bytes k below 2 _ blue⟩
  · exact bytes k below 3 _ (by rw [pixelBytes, if_pos four]; rfl)

end Sys2Proof.Machine
end

section
/-! What IS_QOI answers (R166, R170). The parser's own answer is all its bit and its descriptor registers depend on beside the
length of the stream. -/

namespace Sys2Proof.Machine

theorem headerParses_iff (bs : List Byte) : headerParses bs = true ↔ ∃ d, parseHeader bs = .ok d := by
  rw [headerParses]
  cases parseHeader bs with
  | ok d => exact ⟨fun _ => ⟨d, rfl⟩, fun _ => rfl⟩
  | error k => exact ⟨nofun, nofun⟩

/-- R166: from 23 bytes on the parser runs, whatever the free value is. -/
theorem isQoiParses_of_long {n : Nat} (long : 23 ≤ n) : isQoiParses n = true := by
  rw [isQoiParses, decide_eq_true long, Bool.true_or]

section
variable (stream : List Byte) (s : State)

/-- R166, R170: IS_QOI writes the result bit, the descriptor registers and what the stream's latching writes; every register
of the codec stays. -/
theorem runIsQoi_codecUntouched : CodecUntouched s (runIsQoi stream s) := by
  rw [runIsQoi_eq]
  exact ⟨rfl, rfl, rfl, rfl, rfl, rfl, ⟨rfl, rfl, rfl⟩⟩

theorem runIsQoi_control : (runIsQoi stream s).dec.control = ⟨.done, .ok⟩ := by
  rw [runIsQoi_eq]

theorem runIsQoi_isQoi_iff :
    (runIsQoi stream s).dec.isQoi = true ↔ 23 ≤ stream.length ∧ ∃ d, parseHeader stream = .ok d := by
  rw [runIsQoi_eq, Bool.and_eq_true, decide_eq_true_iff, headerParses_iff, parseHeader_take]

variable {stream}

/-- Log 8: a parsed descriptor is written where the parser ran. -/
theorem runIsQoi_desc_of_ok {d : Descriptor} (parsed : parseHeader stream = .ok d) :
    (runIsQoi stream s).dec.desc = if isQoiParses stream.length then d else s.dec.desc := by
  simp only [runIsQoi_eq, parseHeader_take, parsed]

theorem runIsQoi_desc_of_error {k : ErrorKind} (failed : parseHeader stream = .error k) :
    (runIsQoi stream s).dec.desc = s.dec.desc := by
  simp only [runIsQoi_eq, parseHeader_take, failed]

end

/-- The inputs to come are none of the codec's registers. -/
theorem CodecUntouched.of_withInputs {s t : State} {q : List Input} (h : CodecUntouched { s with inputs := q } t) :
    CodecUntouched s t :=
  { h with encoder := { h.encoder with } }

/-- Settles O44: the bit is the length test and the parser's answer, and a descriptor is written only if the parser ran and
accepted. -/
theorem isQoiResult : Obligations.IsQoiResult := by
  unfold Obligations.IsQoiResult
  intro s stream rest issued idle
  refine ⟨runIsQoi stream { s with inputs := rest }, step_of_issued issued idle rfl,
    (runIsQoi_codecUntouched stream _).of_withInputs, runIsQoi_control stream _, runIsQoi_isQoi_iff stream _,
    fun d parsed long => ?_, fun d parsed => ?_, fun k failed => runIsQoi_desc_of_error _ failed⟩
  · rw [runIsQoi_desc_of_ok _ parsed, if_pos (isQoiParses_of_long long)]
  · rw [runIsQoi_desc_of_ok _ parsed]
    exact ite_eq_or_eq _ _ _

end Sys2Proof.Machine
end

section
/-! An agent without a job stands still (R183, R214). -/

namespace Sys2Proof.Machine

theorem encTurn_of_not_running {s : State} (idle : s.enc.control.phase ≠ .running) : encTurn s = .next s := by
  rw [encTurn, if_neg idle]

theorem decTurn_of_not_running {s : State} (idle : s.dec.control.phase ≠ .running) : decTurn s = .next s := by
  rw [decTurn, if_neg idle]

/-- The turn of an agent outside RUNNING leaves the whole state as it is, the other agent's job included. -/
theorem agentTurn_of_not_running {s : State} {a : Agent} (idle : s.phaseOf a ≠ .running) : agentTurn a s = .next s := by
  cases a with
  | enc => exact encTurn_of_not_running idle
  | dec => exact decTurn_of_not_running idle

/-- Settles O47: the step takes the turn from the inputs, and the agent whose turn it is does not move. -/
theorem endedJobIsNotResumed : Obligations.EndedJobIsNotResumed := by
  unfold Obligations.EndedJobIsNotResumed
  intro s a rest turn idle
  have idle' : State.phaseOf { s with inputs := rest } a ≠ .running := by rwa [State.phaseOf_withInputs]
  rw [step_of_input turn]
  exact agentTurn_of_not_running idle'

end Sys2Proof.Machine
end

section
/-! Every job ends (R213, R214). Each move of an agent in a job ends the job or takes it one pixel on, so the number of pixels
left bounds the number of moves; with no input left the machine gives that agent every step until then (log 4). -/

namespace Sys2Proof.Machine

/-- The pixels an agent's job has still to step through. -/
def State.pixelsLeft (s : State) : Agent → Nat
  | .enc => s.enc.desc.pixelCount - s.enc.pos
  | .dec => s.dec.desc.pixelCount - s.dec.opos

/-- The agent's job has ended (R21), or it goes on with fewer pixels left. -/
def Progressed (a : Agent) (s t : State) : Prop :=
  (t.phaseOf a).final = true ∨ t.phaseOf a = .running ∧ t.pixelsLeft a < s.pixelsLeft a

section
variable {s t : State}

/-! The decoder: every step of a pixel ends in its write (R140, R151). -/

theorem writePixel_progressed (loop : s.dec.InLoop) : Progressed .dec s (writePixel s) := by
  cases accepted : s.dec.accepts
  · rw [writePixel_refused accepted]
    exact .inl rfl
  · rw [writePixel_accepted accepted]
    exact .inr ⟨loop.1, Nat.sub_succ_lt_self _ _ loop.2⟩

theorem decodePixel_progressed (loop : s.dec.InLoop) (moves : decodePixel s = .next t) : Progressed .dec s t := by
  rcases decodePixel_cases s with ⟨-, replicated⟩ | ⟨-, -, exhausted⟩ |
    ⟨-, -, ⟨i, rest, -, executed⟩ | ⟨e, -, faulted⟩⟩
  · obtain rfl := Host.Outcome.next.inj (replicated.symm.trans moves)
    exact writePixel_progressed (s := { s with dec := { s.dec with codec := _ } }) loop
  · obtain rfl := Host.Outcome.next.inj (exhausted.symm.trans moves)
    exact writePixel_progressed loop
  · obtain rfl := Host.Outcome.next.inj (executed.symm.trans moves)
    exact writePixel_progressed (s := beforeWrite i s) loop
  · rw [faulted] at moves; cases moves

theorem decTurn_progressed (running : s.dec.control.phase = .running) (moves : decTurn s = .next t) :
    Progressed .dec s t := by
  by_cases left : s.dec.opos < s.dec.desc.pixelCount
  · rw [decTurn_of_pixel running left] at moves
    exact decodePixel_progressed ⟨running, left⟩ moves
  · rw [decTurn_of_last running (Nat.le_of_not_lt left)] at moves
    obtain rfl := Host.Outcome.next.inj moves
    exact .inl rfl

/-! The encoder: every step of a pixel ends in `nextPos`, or an append was refused (R109, R181). -/

theorem nextPos_progressed (loop : s.enc.InLoop) : Progressed .enc s (nextPos s) :=
  .inr ⟨loop.1, Nat.sub_succ_lt_self _ _ loop.2⟩

/-- A RUN that is emitted leaves the step to what follows it. -/
theorem emitRun_andThen_progressed {f : State → State} (rest : ∀ {u : State}, u.enc.InLoop → Progressed .enc u (f u))
    (loop : s.enc.InLoop) : Progressed .enc s ((emitRun s).andThen f) := by
  cases accepted : s.enc.accepts
  · rw [emitRun_refused accepted]
    exact .inl rfl
  · rw [emitRun_accepted accepted]
    exact rest (u := { s with strOut := _, enc := { s.enc with codec := _, outLen := _, env := _ } }) loop

theorem runStep_progressed (loop : s.enc.InLoop) : Progressed .enc s (runStep s) := by
  rcases runStep_cases s with ⟨-, -, counts⟩ | flushes
  · rw [counts]
    exact nextPos_progressed (s := setRun _ s) loop
  · rw [flushes]
    exact emitRun_andThen_progressed (s := setRun _ s) nextPos_progressed loop

theorem opcodeStep_progressed (cur : Pixel) (loop : s.enc.InLoop) : Progressed .enc s (opcodeStep cur s) := by
  cases accepted : s.enc.accepts
  · rw [opcodeStep_refused cur accepted]
    exact .inl rfl
  · rw [opcodeStep_accepted cur accepted]
    exact .inr ⟨loop.1, Nat.sub_succ_lt_self _ _ loop.2⟩

theorem encodePixel_progressed (cur : Pixel) (loop : s.enc.InLoop) : Progressed .enc s (encodePixel cur s) := by
  unfold encodePixel
  split_ifs with same
  · exact runStep_progressed loop
  · rcases Nat.eq_zero_or_pos s.enc.codec.run with settled | pending
    · rw [flushRun_of_zero settled]
      exact opcodeStep_progressed cur loop
    · rw [flushRun_of_pos pending]
      exact emitRun_andThen_progressed (opcodeStep_progressed cur) loop

theorem finishEncode_final (s : State) : (finishEncode s).enc.control.phase.final = true := by
  cases accepted : s.enc.accepts
  · rw [finishEncode_refused accepted]; rfl
  · rw [finishEncode_accepted accepted]; rfl

theorem encTurn_progressed (running : s.enc.control.phase = .running) (moves : encTurn s = .next t) :
    Progressed .enc s t := by
  unfold encTurn at moves
  split_ifs at moves with left
  · split at moves
    · obtain rfl := Host.Outcome.next.inj moves
      exact encodePixel_progressed _ ⟨running, left⟩
    · cases moves
  · obtain rfl := Host.Outcome.next.inj moves
    exact .inl (finishEncode_final s)

end

/-! Runs of the machine with no input left. -/

/-- No input is left and the agent is in a job that makes the machine's next move: ENC waits for DEC (log 4). -/
structure JobMoves (a : Agent) (s : State) : Prop where
  inputs : s.inputs = []
  running : s.phaseOf a = .running
  decIdle : a = .enc → s.dec.control.phase ≠ .running

section
variable {a : Agent} {s t : State}

theorem agentTurn_progressed (running : s.phaseOf a = .running) (turn : agentTurn a s = .next t) : Progressed a s t := by
  cases a with
  | enc => exact encTurn_progressed running turn
  | dec => exact decTurn_progressed running turn

/-- A move takes no input: beside other inputs the same move is made, and leaves those. -/
theorem agentTurn_inputs (turn : agentTurn a s = .next t) : t.inputs = s.inputs := by
  cases a with
  | enc =>
    have again := encTurn_splice s s s.inputs
    rw [State.splice_self, show encTurn s = .next t from turn, mapNext_next, Host.Outcome.next.injEq] at again
    rw [again]; rfl
  | dec =>
    have again := decTurn_splice s s s.inputs
    rw [State.splice_self, show decTurn s = .next t from turn, mapNext_next, Host.Outcome.next.injEq] at again
    rw [again]; rfl

theorem JobMoves.step_eq (h : JobMoves a s) : step s = agentTurn a s := by
  cases a with
  | enc => exact step_of_encMoves (.inl ⟨h.inputs, h.decIdle rfl, rfl⟩)
  | dec => exact step_of_decMoves (.inl ⟨h.inputs, h.running, rfl⟩)

/-- The same agent moves again while its job goes on. -/
theorem JobMoves.again (h : JobMoves a s) (turn : agentTurn a s = .next t) (running : t.phaseOf a = .running) :
    JobMoves a t where
  inputs := (agentTurn_inputs turn).trans h.inputs
  running := running
  decIdle := by
    rintro rfl
    rw [(encTurn_decUntouched turn).dec]
    exact h.decIdle rfl

/-- The pixels left bound the moves, and one more ends the job. -/
theorem JobMoves.ends (h : JobMoves a s) (inv : s.Inv) :
    ∃ n t, n ≤ s.pixelsLeft a + 1 ∧ core.run n s = .next t ∧ (t.phaseOf a).final = true := by
  induction left : s.pixelsLeft a using Nat.strong_induction_on generalizing s with
  | _ left ih =>
    subst left
    obtain ⟨t, turn⟩ := agentTurn_next inv a
    have first : step s = .next t := h.step_eq.trans turn
    rcases agentTurn_progressed h.running turn with ended | ⟨running, fewer⟩
    · exact ⟨1, t, Nat.le_add_left 1 _, core_run_succ 0 first, ended⟩
    · obtain ⟨n, u, bound, others, ended⟩ := ih _ fewer (h.again turn running) (inv.agentTurn turn) rfl
      exact ⟨n + 1, u, by omega, (core_run_succ n first).trans others, ended⟩

end

/-- Settles O54: DEC moves first, so its job makes every step until it ends. -/
theorem decodeJobEnds : Obligations.DecodeJobEnds := by
  unfold Obligations.DecodeJobEnds
  exact fun _ inv inputs running => JobMoves.ends (a := .dec) ⟨inputs, running, nofun⟩ inv

/-- Settles O55: ENC's moves start no decoder job, so with none at first its own makes every step until it ends. -/
theorem encodeJobEnds : Obligations.EncodeJobEnds := by
  unfold Obligations.EncodeJobEnds
  exact fun _ inv inputs idle running => JobMoves.ends (a := .enc) ⟨inputs, running, fun _ => idle⟩ inv

end Sys2Proof.Machine
end
